-- ==== Sys2Proof/Word.lean ====
section
/-! DEFINITION. The word types of the block and the value type of a colour. -/

namespace Sys2Proof

/-- One byte of SRC or DST, and one 8-bit colour channel (R8, R50, R51). -/
abbrev Byte := BitVec 8

/-- A 32-bit register value (R22). -/
abbrev Word := BitVec 32

/-- One colour: "4 independent 8-bit channels (r,g,b,a). Pure value type" (R11, R27). -/
structure Color where
  r : Byte
  g : Byte
  b : Byte
  a : Byte
deriving DecidableEq, Repr

end Sys2Proof
end

