-- ==== Sys2Proof/Config.lean ====
section
/-! DEFINITION. The implementation parameters of R7 that are fixed, and the values `State.reset` takes for the two that are
open and stand in State. -/

namespace Sys2Proof

/-- The two readings of "the colour of a pixel none of whose source bytes exist" (R7, R194, 93 U2). -/
inductive ShortFill where
  /-- The missing pixel is Color(0, 0, 0, 0) in every format. -/
  | zeroRgba
  /-- The missing pixel is what its format makes of zero bytes. -/
  | formatOfZero
deriving DecidableEq, Repr

namespace Config

/-- The width of a byte index into DST and of DST_LEN (R22, R30, R51). -/
abbrev dstW : Nat := 66

/-- The `ADDR_W` of the block that `State.reset` describes: R7 leaves it open and suggests 64. DESIGN CHOICE (log 1). The
model takes `ADDR_W` as an argument, in State, and no definition but `State.reset` uses this number. -/
def suggestedAddrW : Nat := 64

/-- The `MAX_PIXELS` of the block that `State.reset` describes: R7 leaves it open, "default unbounded"; `none` is
unbounded. DESIGN CHOICE (log 2). The model takes `MAX_PIXELS` as an argument, in State, and no definition but
`State.reset` uses this value. -/
def defaultMaxPixels : Option Nat := none

/-- `SHORT_FILL`: "this hardware's value is `ZERO_RGBA`" (R7, R194). -/
def shortFill : ShortFill := .zeroRgba

/-- `REG_BASE`: the platform's, "used by no rule" (R22, 93 W8). Left free. -/
opaque regBase : Nat

/-- `REG_STRIDE`: the platform's, "used by no rule" (R22, 93 W8). Left free. -/
opaque regStride : Nat

end Config

end Sys2Proof
end

