-- ==== Sys2Proof/Syntax.lean ====
section
/-! DEFINITION. What the block is told: the ten pixel formats, the seventeen rows of the opcode table
as one type of instructions, the twelve registers, and the accesses a host can make. -/

namespace Sys2Proof

/-- The ten pixel formats, a closed set (R2, R24, R81). -/
inductive Format where
  | i1 | i4 | i8 | ia4 | ia8 | ia16 | ci4 | ci8 | rgba16 | rgba32
deriving DecidableEq, Repr

/-- One constructor per row of the opcode table (R80, R97). The first ten are one pixel each: the format
tag is their opcode and the fields of the raw pixel are their operands, exactly as wide as R83 lays them
out. The last seven are the commands; a command "has no operand fields in its word" (R91). -/
inductive Instr where
  /-- I1: one bit of intensity (R83, R110). -/
  | i1 (i : BitVec 1)
  /-- I4: four bits of intensity (R83, R111). -/
  | i4 (i : BitVec 4)
  /-- I8: eight bits of intensity (R83, R112). -/
  | i8 (i : BitVec 8)
  /-- IA4: three bits of intensity, one of alpha (R83, R130). -/
  | ia4 (i : BitVec 3) (a : BitVec 1)
  /-- IA8: four bits of intensity, four of alpha (R83, R131). -/
  | ia8 (i : BitVec 4) (a : BitVec 4)
  /-- IA16: eight bits of intensity, eight of alpha (R83, R132). -/
  | ia16 (i : BitVec 8) (a : BitVec 8)
  /-- CI4: a 4-bit index into a palette the block does not have (R83, R141). -/
  | ci4 (n : BitVec 4)
  /-- CI8: an 8-bit index into a palette the block does not have (R83, R142). -/
  | ci8 (n : BitVec 8)
  /-- RGBA16: 5-5-5-1 (R83, R155). -/
  | rgba16 (r : BitVec 5) (g : BitVec 5) (b : BitVec 5) (a : BitVec 1)
  /-- RGBA32: four bytes (R83, R156). -/
  | rgba32 (r : BitVec 8) (g : BitVec 8) (b : BitVec 8) (a : BitVec 8)
  /-- DECODE, CMD = 1 (R190). -/
  | decode
  /-- DECODE_WINDOW, CMD = 2 (R191). -/
  | decodeWindow
  /-- COLOR_FROM_U32, CMD = 3 (R171). -/
  | colorFromU32
  /-- COLOR_FROM_U16, CMD = 4 (R172). -/
  | colorFromU16
  /-- COLOR_TO_U32, CMD = 5 (R173). -/
  | colorToU32
  /-- COLOR_TO_U16, CMD = 6 (R174). -/
  | colorToU16
  /-- COLOR_RGB, CMD = 7 (R175). -/
  | colorRgb
deriving DecidableEq, Repr

/-- The twelve host-visible registers of R22, in the order of their numbers 0 to 11. -/
inductive Reg where
  | fmt | width | height | offset | srcLen | color | packed | cmd | status | dstLen | outWidth | outHeight
deriving DecidableEq, Repr

/-- One access of the host (R20, R94). The two primitive operations are `WR` and `RD`; the others are what
R20, R37, R59 and R260 let the host and its platform do to the memories and to the block. -/
inductive HostOp where
  /-- `WR n, v`: write the value `v` to register number `n` (R94). -/
  | wr (n v : Nat)
  /-- `RD n`: read register number `n` (R94). -/
  | rd (n : Nat)
  /-- `SRC = [b0, b1, ...]`: the whole contents of SRC, index 0 first (R94). -/
  | srcLoad (bytes : List Byte)
  /-- One byte of SRC, which the host owns (R20, R37). -/
  | srcPoke (k : Nat) (b : Byte)
  /-- Read byte `k` of DST (R59). -/
  | rdDst (k : Nat)
  /-- The platform resets the block (R260). -/
  | reset
deriving DecidableEq, Repr

end Sys2Proof
end

