-- ==== Sys2Proof/Decode.lean ====
section
/-! DEFINITION. Encodings: format tags and sizes (R81, R82), register numbers and widths (R22), the fields of a
raw pixel (R83), command words (R90), the decoder, and after it the encoder. -/

namespace Sys2Proof

/-! ## Formats -/

/-- The tag of a format, the value FMT holds (R81). -/
def Format.tag : Format → Word
  | .i1 => 0
  | .i4 => 1
  | .i8 => 2
  | .ia4 => 3
  | .ia8 => 4
  | .ia16 => 5
  | .ci4 => 6
  | .ci8 => 7
  | .rgba16 => 8
  | .rgba32 => 9

/-- The format a tag names; all 32 bits are compared, and every value of 10 or more names none (R81, R86). -/
def Format.ofTag (t : Word) : Option Format :=
  match t.toNat with
  | 0 => some .i1
  | 1 => some .i4
  | 2 => some .i8
  | 3 => some .ia4
  | 4 => some .ia8
  | 5 => some .ia16
  | 6 => some .ci4
  | 7 => some .ci8
  | 8 => some .rgba16
  | 9 => some .rgba32
  | _ => none

/-- `bits(fmt)`: the number of bits one pixel occupies in SRC (R82). -/
def Format.bits : Format → Nat
  | .i1 => 1
  | .i4 => 4
  | .i8 => 8
  | .ia4 => 4
  | .ia8 => 8
  | .ia16 => 16
  | .ci4 => 4
  | .ci8 => 8
  | .rgba16 => 16
  | .rgba32 => 32

/-- `nb = max(1, bits / 8)`: the number of bytes fetched for one pixel (R55, R82). -/
def Format.bytes (f : Format) : Nat := max 1 (f.bits / 8)

/-- `ppb`: the number of pixels that share one byte (R82). -/
def Format.pixelsPerByte (f : Format) : Nat := max 1 (8 / f.bits)

/-- CI4 and CI8, which need the palette the block does not have: `PALETTE_PRESENT` is false, hardwired (R7, R140). -/
def Format.isPalette : Format → Bool
  | .ci4 => true
  | .ci8 => true
  | .i1 => false
  | .i4 => false
  | .i8 => false
  | .ia4 => false
  | .ia8 => false
  | .ia16 => false
  | .rgba16 => false
  | .rgba32 => false

/-! ## Registers -/

/-- The register of a number; a number above 11 "does not exist" (R22, R23). -/
def Reg.ofNumber : Nat → Option Reg
  | 0 => some .fmt
  | 1 => some .width
  | 2 => some .height
  | 3 => some .offset
  | 4 => some .srcLen
  | 5 => some .color
  | 6 => some .packed
  | 7 => some .cmd
  | 8 => some .status
  | 9 => some .dstLen
  | 10 => some .outWidth
  | 11 => some .outHeight
  | _ => none

/-- The width of a register in bits, on a block whose addresses have `addrW` bits (R7, R22). -/
def Reg.bits (addrW : Nat) : Reg → Nat
  | .fmt => 32
  | .width => 32
  | .height => 32
  | .offset => addrW
  | .srcLen => addrW
  | .color => 32
  | .packed => 32
  | .cmd => 32
  | .status => 32
  | .dstLen => Config.dstW
  | .outWidth => 32
  | .outHeight => 32

/-! ## The decoder -/

/-- Which register a row's `match` and `mask` are applied to (R97, "selector"). -/
inductive Selector where
  | fmt
  | cmd
deriving DecidableEq, Repr

/-- An instruction as bits: the 32-bit value of the selector's register and, for a pixel, the raw pixel value,
zero-extended to 32 bits (R80, R97). A command has no operand bits and `raw` is 0 (R91). -/
structure Encoded where
  selector : Selector
  word : Word
  raw : Word
deriving DecidableEq, Repr

/-- Why bits are no instruction. -/
inductive DecodeError where
  /-- The value is none of the seven command words (R92). -/
  | illegalCommand (c : Word)
  /-- The tag is outside the closed set (R86). -/
  | unsupportedFormat (t : Word)
  /-- The raw value has a bit above the width of its format, which `Fetch` never gives (R57). -/
  | rawTooWide (f : Format) (raw : Word)
  /-- Operand bits beside a command word, which has none (R91). -/
  | commandOperand (raw : Word)
deriving DecidableEq, Repr

/-- The fields of a raw pixel value, by format (R83). -/
def decodePixel (f : Format) (raw : Word) : Instr :=
  match f with
  | .i1 => .i1 (raw.extractLsb' 0 1)
  | .i4 => .i4 (raw.extractLsb' 0 4)
  | .i8 => .i8 (raw.extractLsb' 0 8)
  | .ia4 => .ia4 (raw.extractLsb' 1 3) (raw.extractLsb' 0 1)
  | .ia8 => .ia8 (raw.extractLsb' 4 4) (raw.extractLsb' 0 4)
  | .ia16 => .ia16 (raw.extractLsb' 8 8) (raw.extractLsb' 0 8)
  | .ci4 => .ci4 (raw.extractLsb' 0 4)
  | .ci8 => .ci8 (raw.extractLsb' 0 8)
  | .rgba16 =>
    .rgba16 (raw.extractLsb' 11 5) (raw.extractLsb' 6 5) (raw.extractLsb' 1 5) (raw.extractLsb' 0 1)
  | .rgba32 =>
    .rgba32 (raw.extractLsb' 24 8) (raw.extractLsb' 16 8) (raw.extractLsb' 8 8) (raw.extractLsb' 0 8)

/-- The command of a value written to CMD; all 32 bits are compared, and every value but 1 to 7 is no command
(R90, R92). -/
def decodeCommand (c : Word) : Option Instr :=
  match c.toNat with
  | 1 => some .decode
  | 2 => some .decodeWindow
  | 3 => some .colorFromU32
  | 4 => some .colorFromU16
  | 5 => some .colorToU32
  | 6 => some .colorToU16
  | 7 => some .colorRgb
  | _ => none

/-- The decoder of R97: total on any bits, rejecting by name. -/
def decode (e : Encoded) : Except DecodeError Instr :=
  match e.selector with
  | .cmd =>
    match decodeCommand e.word with
    | none => .error (.illegalCommand e.word)
    | some i => if e.raw = 0 then .ok i else .error (.commandOperand e.raw)
  | .fmt =>
    match Format.ofTag e.word with
    | none => .error (.unsupportedFormat e.word)
    | some f =>
      if e.raw.toNat < 2 ^ f.bits then .ok (decodePixel f e.raw) else .error (.rawTooWide f e.raw)

/-! ## The encoder -/

/-- The bits of an instruction, written from the tables of R81, R83 and R90. -/
def encode : Instr → Encoded
  | .i1 i => ⟨.fmt, 0x00000000, i.setWidth 32⟩
  | .i4 i => ⟨.fmt, 0x00000001, i.setWidth 32⟩
  | .i8 i => ⟨.fmt, 0x00000002, i.setWidth 32⟩
  | .ia4 i a => ⟨.fmt, 0x00000003, (i ++ a).setWidth 32⟩
  | .ia8 i a => ⟨.fmt, 0x00000004, (i ++ a).setWidth 32⟩
  | .ia16 i a => ⟨.fmt, 0x00000005, (i ++ a).setWidth 32⟩
  | .ci4 n => ⟨.fmt, 0x00000006, n.setWidth 32⟩
  | .ci8 n => ⟨.fmt, 0x00000007, n.setWidth 32⟩
  | .rgba16 r g b a => ⟨.fmt, 0x00000008, (r ++ g ++ b ++ a).setWidth 32⟩
  | .rgba32 r g b a => ⟨.fmt, 0x00000009, (r ++ g ++ b ++ a).setWidth 32⟩
  | .decode => ⟨.cmd, 0x00000001, 0⟩
  | .decodeWindow => ⟨.cmd, 0x00000002, 0⟩
  | .colorFromU32 => ⟨.cmd, 0x00000003, 0⟩
  | .colorFromU16 => ⟨.cmd, 0x00000004, 0⟩
  | .colorToU32 => ⟨.cmd, 0x00000005, 0⟩
  | .colorToU16 => ⟨.cmd, 0x00000006, 0⟩
  | .colorRgb => ⟨.cmd, 0x00000007, 0⟩

/-! ## The opcode table's own numbering of bits -/

/-- The bits of an instruction as the opcode table numbers them: the selector's 32-bit value first (bits 31 to 0),
then the raw pixel, to which the table gives no bits (bits 63 to 32). -/
def Encoded.ofTableWord (sel : Selector) (w : Nat) : Encoded :=
  ⟨sel, BitVec.ofNat 32 w, BitVec.ofNat 32 (w / 2 ^ 32)⟩

/-- The instruction the decoder reads from a table word. The table's numbers 1 to 7 are both tags and command
words, told apart by the row's selector, which the arguments do not carry: a row of 16 bits or fewer is a pixel;
a longer one is a command if it is one, else a pixel (log 5). -/
def decodeTableWord (nbits w : Nat) : Option Instr :=
  if nbits ≤ 16 then (decode (Encoded.ofTableWord .fmt w)).toOption
  else
    match decode (Encoded.ofTableWord .cmd w) with
    | .ok i => some i
    | .error _ => (decode (Encoded.ofTableWord .fmt w)).toOption

end Sys2Proof
end

