-- ==== Sys2Proof/WellFormed.lean ====
section
/-! DEFINITION. Well-formedness. The fields of an instruction are exactly as wide as its encoding, so every term of
`Instr` is well-formed and there is nothing to check on it; the checks are on its bits and on what a host can ask. -/

namespace Sys2Proof

/-- The bits are laid out as an instruction's are: a command word carries no operand bits (R91), and a raw pixel
has no bit above the width of its format (R57, R83). -/
def Encoded.wf (e : Encoded) : Bool :=
  match e.selector with
  | .cmd => e.raw == 0
  | .fmt =>
    match Format.ofTag e.word with
    | none => false
    | some f => decide (e.raw.toNat < 2 ^ f.bits)

/-- The access is one a host can make of a block whose addresses have `addrW` bits: "the host interface carries exactly the register's width" (R23), and a byte
of SRC has an index of ADDR_W bits (R50). -/
def HostOp.wf (addrW : Nat) : HostOp → Bool
  | .wr n v =>
    match Reg.ofNumber n with
    | none => true
    | some r => decide (v < 2 ^ r.bits addrW)
  | .rd _ => true
  | .srcLoad bytes => decide (bytes.length ≤ 2 ^ addrW)
  | .srcPoke k _ => decide (k < 2 ^ addrW)
  | .rdDst _ => true
  | .reset => true

end Sys2Proof
end

