-- ==== Sys2Proof/Machine/State.lean ====
section
/-! DEFINITION. The state of the block, as plain data, and its value right after reset. -/

namespace Sys2Proof.Machine

/-- A byte memory, SRC or DST: the bytes that are there, as (index, byte) pairs. An unlisted index has no value
(R50, R59, R63). -/
abbrev Memory := List Host.Cell

/-- The one form of a memory: indices strictly rising. An unlisted index reads as no value at all, so no listed
byte can equal it. -/
abbrev Memory.wf (m : Memory) : Prop := m.Pairwise (fun p q => p.1 < q.1)

/-- STATUS.CAUSE other than NONE: the three hard faults (R32, R220). -/
inductive Cause where
  /-- A decode of CI4 or CI8 (R225). -/
  | unresolvedPaletteFormat
  /-- A decode with a tag outside the closed set (R223). -/
  | unsupportedFormat
  /-- A write to CMD of a value that is not a command (R224). -/
  | illegalCommand
deriving DecidableEq, Repr

/-- What STATUS can say (R32). CAUSE is nonzero exactly when RESULT = FAULT, so a cause stands with a fault and
with nothing else; the values that are never produced (93 W6) have no term. -/
inductive Status where
  /-- No command since reset. -/
  | none
  /-- DecodedImage. -/
  | image
  /-- The window's offset is past the end of SRC. -/
  | nothingToDraw
  /-- DecodeFault, or an illegal command. -/
  | fault (c : Cause)
  /-- A colour command completed. -/
  | value
deriving DecidableEq, Repr

/-- The inside of a decode command: the latched operands (R31, R53) and the raster position (R29, R30). It exists
only inside a command; counters are exact (R10, R30). -/
structure Raster where
  /-- The latched format, after the format test (R31, R193). -/
  fmt : Format
  /-- The latched WIDTH. -/
  w : Word
  /-- The latched HEIGHT. -/
  h : Word
  /-- `BASE`: the byte of SRC where the slice begins (R53). -/
  base : Nat
  /-- `AVAIL`: the number of bytes in the slice (R53). -/
  avail : Nat
  /-- `PIX`: the index of the pixel being produced. -/
  pix : Nat
  /-- `X`. -/
  x : Nat
  /-- `Y`. -/
  y : Nat
deriving DecidableEq, Repr

/-- What the block last answered to a host read. -/
inductive Reply where
  /-- The value of register number `n` (R23). -/
  | register (n v : Nat)
  /-- Byte `k` of DST (R59). -/
  | dstByte (k : Nat) (b : Byte)
deriving DecidableEq, Repr

/-- The state of one block and what its host has still to do. CMD "holds no state" (R34) and has no field. -/
structure State where
  /-- `ADDR_W`, the platform's: the width of OFFSET and SRC_LEN and of a byte index into SRC, any value of 1 or more
  (R7, R26, R50). An argument of the model; no step changes it (log 1). -/
  addrW : Nat
  /-- `MAX_PIXELS`, the platform's: the most pixels its DST can take, `none` if unbounded (R7, R266). An argument of the
  model; no step changes it (log 2). -/
  maxPixels : Option Nat
  /-- Register 0, FMT: the format tag (R24). -/
  fmt : Word
  /-- Register 1, WIDTH (R25). -/
  width : Word
  /-- Register 2, HEIGHT (R25). -/
  height : Word
  /-- Register 3, OFFSET: unsigned, `addrW` bits (R26); only compared and subtracted exactly (R10). -/
  offset : Nat
  /-- Register 4, SRC_LEN: unsigned, `addrW` bits (R26). -/
  srcLen : Nat
  /-- Register 5, COLOR (R27). -/
  color : Word
  /-- Register 6, PACKED (R28). -/
  packed : Word
  /-- Register 8, STATUS (R32). -/
  status : Status
  /-- Register 9, DST_LEN (R35). -/
  dstLen : BitVec Config.dstW
  /-- Register 10, OUT_WIDTH (R35). -/
  outWidth : Word
  /-- Register 11, OUT_HEIGHT (R35). -/
  outHeight : Word
  /-- SRC: the bytes the host supplied (R37, R50). -/
  src : Memory
  /-- DST: the bytes the block stored; which of them are valid is R59's, by STATUS and DST_LEN (R37, R51). -/
  dst : Memory
  /-- The decode command in progress, if the machine stands inside one (R21, R30). -/
  raster : Option Raster
  /-- The host accesses not yet accepted, oldest first (R20, R65). -/
  host : List HostOp
  /-- The model's own: the answer to the last host read, none before the first (log 6). -/
  reply : Option Reply
deriving DecidableEq, Repr

/-- Why the machine stops with a fault. The block's own three faults are no such stop: they are reported in STATUS
and the block goes on (R226, R229). -/
inductive Fault where
  /-- The host named a byte of SRC, or a length of SRC, beyond an index of ADDR_W bits: no such byte exists (R50).
  Raised by the host's accesses to SRC. Safe: the machine stops. -/
  | srcIndexOutOfSpace (k : Nat)
deriving DecidableEq, Repr

/-- Why a step has no meaning. -/
inductive Refusal where
  /-- An instruction without a meaning yet, by its name in the opcode table. Raised by exec's arms. Safe. -/
  | notModelled (mnemonic : String)
  /-- A pixel to unpack with no decode command in progress, which no run brings about: the raster position "does not
  exist between commands" (R30). Raised by the pixel instructions of the formats that have colours; CI4 and
  CI8 fault instead (log 13). Safe. -/
  | noDecodeInProgress
  /-- A command where the raster loop asks for a pixel. Raised by the loop's own choice of meanings, and never in a
  run: a raw pixel decodes to a pixel. Safe. -/
  | pixelExpected
  /-- Pixel `pix` needs a byte below SRC_LEN that the host never supplied: "this spec gives those reads no value
  (model: refuse the command)" (R263, 93 W3). Raised by the fetch of a pixel. Safe. -/
  | srcNotSupplied (pix : Nat)
  /-- The tile has more pixels than MAX_PIXELS (R266, 93 W4). Raised by the decode commands. Safe. -/
  | destinationCapacity (npix : Nat)
  /-- The host reads a byte of DST that is not valid: "a model gives it none (refuse, not zero)" (R59, 93 W1).
  Raised by the host's read of DST. Safe. -/
  | dstNotValid (k : Nat)
  /-- The host writes a value wider than the register, which "is not possible" (R23). Raised by the host's write.
  Safe. -/
  | hostValueTooWide (n v : Nat)
deriving DecidableEq, Repr

/-- The block right after reset (R39) on a platform that has fixed `ADDR_W` and `MAX_PIXELS` (R7), with nothing supplied
in SRC, nothing stored in DST and no host access waiting. -/
def State.resetOn (addrW : Nat) (maxPixels : Option Nat) : State where
  addrW := addrW
  maxPixels := maxPixels
  fmt := 0
  width := 0
  height := 0
  offset := 0
  srcLen := 0
  color := 0
  packed := 0
  status := .none
  dstLen := 0
  outWidth := 0
  outHeight := 0
  src := []
  dst := []
  raster := .none
  host := []
  reply := .none

/-- The block right after reset, with the suggested `ADDR_W` and the default `MAX_PIXELS` (R7; log 1, log 2). -/
def State.reset : State := State.resetOn Config.suggestedAddrW Config.defaultMaxPixels

end Sys2Proof.Machine
end

