-- ==== Sys2Proof/Machine/Flags.lean ====
section
/-! DEFINITION. The bits of STATUS (R32), the block's only flags. -/

namespace Sys2Proof.Machine

/-- The code of STATUS.RESULT (R32, R220). -/
def Status.result : Status → BitVec 3
  | .none => 0
  | .image => 1
  | .nothingToDraw => 2
  | .fault _ => 3
  | .value => 4

/-- The code of a fault's cause (R32, R220). -/
def Cause.code : Cause → BitVec 2
  | .unresolvedPaletteFormat => 1
  | .unsupportedFormat => 2
  | .illegalCommand => 3

/-- The code of STATUS.CAUSE: NONE unless RESULT is FAULT (R32). -/
def Status.cause : Status → BitVec 2
  | .none => 0
  | .image => 0
  | .nothingToDraw => 0
  | .fault c => c.code
  | .value => 0

/-- STATUS as a host reads it: CAUSE in bits 5:4, RESULT in bits 2:0, every other bit 0 (R32). -/
def Status.word (st : Status) : Word := (st.cause ++ (0 : BitVec 1) ++ st.result).setWidth 32

end Sys2Proof.Machine
end

