-- ==== Sys2Proof/Machine/Ops.lean ====
section
/-! DEFINITION. The operations every command shares: bytes of memory, registers by number, the end of a command,
taking a fault, and reset. -/

namespace Sys2Proof

/-! ## Colours and 32-bit words -/

/-- A colour as a 32-bit word, R in bits 31 to 24: the layout of COLOR and PACKED (R27, R28) and, most significant
byte first, of a pixel in DST (R52, R58). -/
def Color.word (c : Color) : Word := c.r ++ c.g ++ c.b ++ c.a

/-- The colour a 32-bit word lays out (R27). -/
def Color.ofWord (v : Word) : Color :=
  ⟨v.extractLsb' 24 8, v.extractLsb' 16 8, v.extractLsb' 8 8, v.extractLsb' 0 8⟩

/-- The four bytes of a colour in DST order: R, G, B, A (R52). -/
def Color.bytes (c : Color) : List Byte := [c.r, c.g, c.b, c.a]

end Sys2Proof

namespace Sys2Proof.Machine

/-! ## Memory -/

/-- The byte at index `k`, if there is one (R50, R51). -/
def Memory.read : Memory → Nat → Option Byte
  | [], _ => none
  | c :: m, k => if k = c.1 then some c.2 else Memory.read m k

/-- Store a byte at index `k`, keeping the indices rising. -/
def Memory.write : Memory → Nat → Byte → Memory
  | [], k, v => [(k, v)]
  | c :: m, k, v =>
    if k < c.1 then (k, v) :: c :: m
    else if k = c.1 then (k, v) :: m
    else c :: Memory.write m k v

/-- Store bytes at `k`, `k + 1`, and so on. -/
def Memory.writeBytes : Memory → Nat → List Byte → Memory
  | m, _, [] => m
  | m, k, v :: vs => Memory.writeBytes (m.write k v) (k + 1) vs

/-- A memory that holds exactly these bytes, from index 0 up: `SRC = [b0, b1, ...]` (R94). -/
def Memory.ofBytes (bytes : List Byte) : Memory := Memory.writeBytes [] 0 bytes

/-- `MemWrite(a, 4, v)`: four bytes, most significant first (R58). -/
def Memory.writeWord (m : Memory) (a : Nat) (v : Word) : Memory :=
  m.writeBytes a [v.extractLsb' 24 8, v.extractLsb' 16 8, v.extractLsb' 8 8, v.extractLsb' 0 8]

/-! ## Registers -/

/-- The value a host reads from register number `n`: CMD and every number above 11 read as 0 (R23). -/
def State.readReg (s : State) (n : Nat) : Nat :=
  match Reg.ofNumber n with
  | none => 0
  | some .fmt => s.fmt.toNat
  | some .width => s.width.toNat
  | some .height => s.height.toNat
  | some .offset => s.offset
  | some .srcLen => s.srcLen
  | some .color => s.color.toNat
  | some .packed => s.packed.toNat
  | some .cmd => 0
  | some .status => s.status.word.toNat
  | some .dstLen => s.dstLen.toNat
  | some .outWidth => s.outWidth.toNat
  | some .outHeight => s.outHeight.toNat

/-- A host write to a register other than CMD: registers 8 to 11 ignore it (R23). CMD stores nothing (R34); what a
write to it starts is the host access's, not this one's. -/
def State.writeReg (s : State) (r : Reg) (v : Nat) : State :=
  match r with
  | .fmt => { s with fmt := BitVec.ofNat 32 v }
  | .width => { s with width := BitVec.ofNat 32 v }
  | .height => { s with height := BitVec.ofNat 32 v }
  | .offset => { s with offset := v % 2 ^ s.addrW }
  | .srcLen => { s with srcLen := v % 2 ^ s.addrW }
  | .color => { s with color := BitVec.ofNat 32 v }
  | .packed => { s with packed := BitVec.ofNat 32 v }
  | .cmd => s
  | .status => s
  | .dstLen => s
  | .outWidth => s
  | .outHeight => s

/-! ## The end of a command -/

/-- What every command does as it ends: it rewrites STATUS in full and the three result registers, and the raster
position is gone (R30, R33, R35). -/
def State.endCommand (s : State) (st : Status) (len : Nat) (w h : Word) : State :=
  { s with
    status := st
    dstLen := BitVec.ofNat Config.dstW len
    outWidth := w
    outHeight := h
    raster := none }

/-- The end of a command that leaves no image: DST_LEN, OUT_WIDTH and OUT_HEIGHT are 0 (R35). -/
def State.endWithout (s : State) (st : Status) : State := s.endCommand st 0 0 0

/-- Taking a fault, `raise <Fault>`: STATUS says FAULT and the cause, the result registers are 0 and the command
ends; "No mode changes, nothing is saved or stacked, control goes nowhere" (R226). "There is no return instruction,
because there was no transfer of control": any later command rewrites STATUS (R229). -/
def State.raise (s : State) (c : Cause) : State := s.endWithout (.fault c)

/-- The byte of DST a host may read: after a command with RESULT = IMAGE exactly the bytes below DST_LEN are valid,
and at any other time none is (R59). -/
def State.dstByte (s : State) (k : Nat) : Option Byte :=
  match s.status with
  | .image => if k < s.dstLen.toNat then s.dst.read k else none
  | .none => none
  | .nothingToDraw => none
  | .fault _ => none
  | .value => none

/-- Reset: every register at its reset value and the block idle; SRC is not touched and DST is not written (R260).
What the host has still to ask and what it was last told are the host's. -/
def State.applyReset (s : State) : State :=
  { State.resetOn s.addrW s.maxPixels with src := s.src, dst := s.dst, host := s.host, reply := s.reply }

end Sys2Proof.Machine
end

