-- ==== Sys2Proof/Machine/Operands.lean ====
section
/-! DEFINITION. Where a pixel comes from: the slice, the short-read rule, the fetch of one raw pixel, and how much of
the source a tile needs (R53 to R57, R60). -/

namespace Sys2Proof

/-- `k0 = floor(i * bits / 8)`: the first slice byte of pixel `i`; the fraction is dropped (R57, R98). -/
def Format.firstByte (f : Format) (i : Nat) : Nat := i * f.bits / 8

/-- How much of a pixel the slice holds (R55). -/
inductive Presence where
  | present
  | partlyPresent
  | whollyMissing
deriving DecidableEq, Repr

/-- The class of pixel `i` in a slice of `avail` bytes (R55). -/
def Format.presence (f : Format) (avail i : Nat) : Presence :=
  if f.firstByte i + f.bytes ≤ avail then .present
  else if avail ≤ f.firstByte i then .whollyMissing
  else .partlyPresent

/-- `NEED = ceil(NPIX * bits / 8)`: the bytes of the slice a tile of `npix` pixels needs (R60). -/
def Format.need (f : Format) (npix : Nat) : Nat := (npix * f.bits + 7) / 8

/-- A short read: the slice has fewer bytes than the tile needs. "NOT an error" and reported nowhere (R60, R221). -/
def Format.isShortRead (f : Format) (avail npix : Nat) : Bool := decide (avail < f.need npix)

end Sys2Proof

namespace Sys2Proof.Machine

/-- The part of SRC a decode command reads: from byte `BASE`, `AVAIL` bytes (R53). -/
structure Slice where
  src : Memory
  base : Nat
  avail : Nat
deriving DecidableEq, Repr

/-- `SrcByte(k)`: the byte of the slice if it exists, else 0x00 without looking at SRC (R54). No value where SRC_LEN
promises a byte the host did not supply (R263). -/
def Slice.byte (sl : Slice) (k : Nat) : Option Byte :=
  if k < sl.avail then sl.src.read (sl.base + k) else some 0

/-- `MemRead(k, n)`: `n` bytes of the slice, the first most significant (R52, R56). -/
def Slice.read (sl : Slice) (k : Nat) : Nat → Option Word
  | 0 => some 0
  | n + 1 => (Slice.read sl k n).bind fun v => (sl.byte (k + n)).map fun b => (v <<< 8) ||| b.setWidth 32

/-- `Fetch(fmt, i)`: the raw value of pixel `i`, zero-extended to 32 bits. Pixels follow one another with no gap and
no row padding, most significant bit first (R57). -/
def Slice.fetch (sl : Slice) (f : Format) (i : Nat) : Option Word :=
  if f.bits < 8 then
    (sl.byte (f.firstByte i)).map fun b =>
      ((b.setWidth 32 : Word) >>> (8 - f.bits - i * f.bits % 8)) &&& BitVec.ofNat 32 (2 ^ f.bits - 1)
  else sl.read (f.firstByte i) (f.bits / 8)

/-- The slice of a decode command in progress (R53). -/
def Raster.slice (r : Raster) (src : Memory) : Slice := ⟨src, r.base, r.avail⟩

end Sys2Proof.Machine
end

