-- ==== Sys2Proof/Machine/Expansion.lean ====
section
/-! DEFINITION. color_expansion_lut: the constant tables that widen a narrow channel to 8 bits (R36, R84, R150 to
R153), as the formulas that define them. -/

namespace Sys2Proof.Machine

/-- `LUT5(v) = (v << 3) | (v >> 2)` (R150). -/
def lut5 (v : BitVec 5) : Byte := (v.setWidth 8 <<< 3) ||| (v.setWidth 8 >>> 2)

/-- `LUT3(t) = (t << 5) | (t << 2) | (t >> 1)` (R151). -/
def lut3 (t : BitVec 3) : Byte := (t.setWidth 8 <<< 5) ||| (t.setWidth 8 <<< 2) ||| (t.setWidth 8 >>> 1)

/-- `LUT4(n) = (n << 4) | n` (R152). -/
def lut4 (n : BitVec 4) : Byte := (n.setWidth 8 <<< 4) ||| n.setWidth 8

/-- `LUT1(s) = 0xFF if s = 1 else 0x00` (R153). -/
def lut1 (s : BitVec 1) : Byte := if s = 1 then 0xFF else 0x00

/-- `SHL4(n) = n << 4`, which I4 uses and which does not reach 0xFF (R84, R111). -/
def shl4 (n : BitVec 4) : Byte := n.setWidth 8 <<< 4

/-- "one sample value is replicated into R, G, and B" (R84). -/
def grey (v a : Byte) : Color := ⟨v, v, v, a⟩

end Sys2Proof.Machine
end

