-- ==== Sys2Proof/Machine/Position.lean ====
section
/-! DEFINITION. The raster position, the block's only sequencing, and the one thing a pixel does: store its colour and
move on (R29, R194, R196). -/

namespace Sys2Proof.Machine

/-- `NPIX = W * H`, exact (R10, R25, R195). -/
def tilePixels (w h : Word) : Nat := w.toNat * h.toNat

/-- The number of pixels of the tile being decoded. -/
def Raster.npix (r : Raster) : Nat := tilePixels r.w r.h

/-- The step from one pixel to the next: "PIX <- PIX + 1", and "X <- X + 1, or X <- 0; Y <- Y + 1 when X + 1 = W"
(R29, R196). -/
def Raster.next (r : Raster) : Raster :=
  if r.x + 1 = r.w.toNat then { r with pix := r.pix + 1, x := 0, y := r.y + 1 }
  else { r with pix := r.pix + 1, x := r.x + 1 }

/-- The end of a decode that made an image: `DST_LEN = 4 * NPIX`, OUT_WIDTH and OUT_HEIGHT as latched, RESULT =
IMAGE (R35, R193). -/
def State.finishImage (s : State) (r : Raster) : State := s.endCommand .image (4 * r.npix) r.w r.h

/-- The test of the raster loop, `while PIX < NPIX`: stand at pixel PIX, or end the command (R196). -/
def State.atPixel (s : State) (r : Raster) : State :=
  if r.pix < r.npix then { s with raster := some r } else s.finishImage r

/-- The colour stored for a pixel: its own, unless none of its source bytes exists; then SHORT_FILL's, where `zero` is
what the format makes of a raw value of 0 (R194). -/
def fillColor (fill : ShortFill) (p : Presence) (c zero : Color) : Color :=
  match p with
  | .whollyMissing =>
    match fill with
    | .zeroRgba => ⟨0, 0, 0, 0⟩
    | .formatOfZero => zero
  | .present => c
  | .partlyPresent => c

/-- One step of the raster loop for a pixel of format `f` whose colour is `c`: `MemWrite(4 * PIX, 4, PixelColor)`,
then the position moves on (R193, R194, R196). The presence is `f`'s own, also where `f` is not the latched format, which no
run brings about: DESIGN CHOICE (log 8). -/
def storePixel (f : Format) (c zero : Color) (s : State) : Host.Outcome State Fault Refusal :=
  match s.raster with
  | none => .refused .noDecodeInProgress
  | some r =>
    .next (State.atPixel
      { s with
        dst := s.dst.writeWord (4 * r.pix)
          (fillColor Config.shortFill (f.presence r.avail r.pix) c zero).word }
      r.next)

end Sys2Proof.Machine
end

