-- ==== Sys2Proof/Machine/DirectColor.lean ====
section
/-! DEFINITION. The direct-colour formats RGBA16 and RGBA32 (R155, R156). -/

namespace Sys2Proof.Machine

/-- `Unpack(RGBA16, raw)`: three channels through LUT5, alpha through LUT1 (R155). -/
def unpackRgba16 (r g b : BitVec 5) (a : BitVec 1) : Color := ⟨lut5 r, lut5 g, lut5 b, lut1 a⟩

/-- `Unpack(RGBA32, raw)`: the four bytes as they are (R156). -/
def unpackRgba32 (r g b a : BitVec 8) : Color := ⟨r, g, b, a⟩

/-- One RGBA16 pixel (R155, R194). -/
def execRgba16 (r g b : BitVec 5) (a : BitVec 1) (s : State) : Host.Outcome State Fault Refusal :=
  storePixel .rgba16 (unpackRgba16 r g b a) (unpackRgba16 0 0 0 0) s

/-- One RGBA32 pixel (R156, R194). -/
def execRgba32 (r g b a : BitVec 8) (s : State) : Host.Outcome State Fault Refusal :=
  storePixel .rgba32 (unpackRgba32 r g b a) (unpackRgba32 0 0 0 0) s

end Sys2Proof.Machine
end

