-- ==== Sys2Proof/Machine/ColorPack.lean ====
section
/-! DEFINITION. RGBA_packer: the five colour commands, each on COLOR and PACKED alone (R170 to R177). The literal RGBA
of R170 is the host's write to COLOR and no command. -/

namespace Sys2Proof.Machine

/-- The 5-5-5-1 packing of a colour: the top five bits of each colour channel and the top bit of alpha (R174). -/
def pack5551 (c : Color) : BitVec 16 :=
  c.r.extractLsb' 3 5 ++ c.g.extractLsb' 3 5 ++ c.b.extractLsb' 3 5 ++ c.a.extractLsb' 7 1

/-- The colour of a 5-5-5-1 packed pixel, the same function as `Unpack(RGBA16, h)` (R155, R172). -/
def unpack5551 (h : BitVec 16) : Color :=
  unpackRgba16 (h.extractLsb' 11 5) (h.extractLsb' 6 5) (h.extractLsb' 1 5) (h.extractLsb' 0 1)

/-- COLOR_FROM_U32: COLOR from the 32 bits of PACKED (R171, R177). -/
def execColorFromU32 (s : State) : Host.Outcome State Fault Refusal :=
  .next (State.endWithout { s with color := (Color.ofWord s.packed).word } .value)

/-- COLOR_FROM_U16: COLOR from PACKED[15:0]; the upper half is ignored (R172, R177). -/
def execColorFromU16 (s : State) : Host.Outcome State Fault Refusal :=
  .next (State.endWithout { s with color := (unpack5551 (s.packed.extractLsb' 0 16)).word } .value)

/-- COLOR_TO_U32: PACKED from the four channels of COLOR (R173, R177). -/
def execColorToU32 (s : State) : Host.Outcome State Fault Refusal :=
  .next (State.endWithout { s with packed := (Color.ofWord s.color).word } .value)

/-- COLOR_TO_U16: PACKED from COLOR, truncated to 5-5-5-1; the upper half is 0 (R174, R177). -/
def execColorToU16 (s : State) : Host.Outcome State Fault Refusal :=
  .next (State.endWithout { s with packed := (pack5551 (Color.ofWord s.color)).setWidth 32 } .value)

/-- COLOR_RGB: alpha becomes 0xFF, the colour channels are kept (R175, R177). -/
def execColorRgb (s : State) : Host.Outcome State Fault Refusal :=
  .next (State.endWithout { s with color := { Color.ofWord s.color with a := 0xFF : Color }.word } .value)

end Sys2Proof.Machine
end

