-- ==== Sys2Proof/Machine/ColorIndex.lean ====
section
/-! DEFINITION. The colour-index formats CI4 and CI8: a layout and a size, but no colour. "a model of this hardware
must not give CI4 pixels a colour" (R140 to R142). The spec raises their fault at the format check of a decode command, before
any pixel, so no run reaches a CI4 or CI8 pixel. What such a pixel does as an instruction of its own, with a decode in progress
or, the raster position not existing (R30), without one, is DESIGN CHOICE (log 13): the fault, in every state. -/

namespace Sys2Proof.Machine

/-- CI4: UnresolvedPaletteFormat, whatever the index (R140, R141), and, DESIGN CHOICE (log 13), whether or not a decode is in
progress. -/
def execCi4 (_n : BitVec 4) (s : State) : Host.Outcome State Fault Refusal :=
  .next (s.raise .unresolvedPaletteFormat)

/-- CI8: UnresolvedPaletteFormat, whatever the index (R140, R142), and, DESIGN CHOICE (log 13), whether or not a decode is in
progress. -/
def execCi8 (_n : BitVec 8) (s : State) : Host.Outcome State Fault Refusal :=
  .next (s.raise .unresolvedPaletteFormat)

end Sys2Proof.Machine
end

