-- ==== Sys2Proof/Machine/Intensity.lean ====
section
/-! DEFINITION. The intensity formats I1, I4 and I8: an opaque grey (R110 to R115). -/

namespace Sys2Proof.Machine

/-- `Unpack(I1, raw)`: a set bit is opaque white, a clear one opaque black (R110). -/
def unpackI1 (i : BitVec 1) : Color := grey (lut1 i) 0xFF

/-- `Unpack(I4, raw)`: the nibble shifted left by 4, alpha 0xFF (R111). -/
def unpackI4 (i : BitVec 4) : Color := grey (shl4 i) 0xFF

/-- `Unpack(I8, raw)`: the byte itself, alpha 0xFF (R112). -/
def unpackI8 (i : BitVec 8) : Color := grey i 0xFF

/-- One I1 pixel (R110, R194). -/
def execI1 (i : BitVec 1) (s : State) : Host.Outcome State Fault Refusal :=
  storePixel .i1 (unpackI1 i) (unpackI1 0) s

/-- One I4 pixel (R111, R194). -/
def execI4 (i : BitVec 4) (s : State) : Host.Outcome State Fault Refusal :=
  storePixel .i4 (unpackI4 i) (unpackI4 0) s

/-- One I8 pixel (R112, R194). -/
def execI8 (i : BitVec 8) (s : State) : Host.Outcome State Fault Refusal :=
  storePixel .i8 (unpackI8 i) (unpackI8 0) s

end Sys2Proof.Machine
end

