-- ==== Sys2Proof/Machine/IntensityAlpha.lean ====
section
/-! DEFINITION. The intensity-and-alpha formats IA4, IA8 and IA16; alpha is data (R130 to R133). -/

namespace Sys2Proof.Machine

/-- `Unpack(IA4, raw)`: three bits through LUT3, one through LUT1 (R130). -/
def unpackIa4 (i : BitVec 3) (a : BitVec 1) : Color := grey (lut3 i) (lut1 a)

/-- `Unpack(IA8, raw)`: both nibbles through LUT4 (R131). -/
def unpackIa8 (i a : BitVec 4) : Color := grey (lut4 i) (lut4 a)

/-- `Unpack(IA16, raw)`: both bytes as they are (R132). -/
def unpackIa16 (i a : BitVec 8) : Color := grey i a

/-- One IA4 pixel (R130, R194). -/
def execIa4 (i : BitVec 3) (a : BitVec 1) (s : State) : Host.Outcome State Fault Refusal :=
  storePixel .ia4 (unpackIa4 i a) (unpackIa4 0 0) s

/-- One IA8 pixel (R131, R194). -/
def execIa8 (i a : BitVec 4) (s : State) : Host.Outcome State Fault Refusal :=
  storePixel .ia8 (unpackIa8 i a) (unpackIa8 0 0) s

/-- One IA16 pixel (R132, R194). -/
def execIa16 (i a : BitVec 8) (s : State) : Host.Outcome State Fault Refusal :=
  storePixel .ia16 (unpackIa16 i a) (unpackIa16 0 0) s

end Sys2Proof.Machine
end

