-- ==== Sys2Proof/Machine/Raster.lean ====
section
/-! DEFINITION. raster_decoder: the commands DECODE and DECODE_WINDOW, the checks before the first pixel, the raster
loop over the pixel instructions, the colour of a pixel as one function, and the pad-or-truncate stage (R190 to R201). -/

namespace Sys2Proof.Machine

/-! ## The loop -/

/-- The meaning of a pixel, as the raster loop asks for it: each format's own (R193, R194). -/
def execPixel (i : Instr) (s : State) : Host.Outcome State Fault Refusal :=
  match i with
  | .i1 i => execI1 i s
  | .i4 i => execI4 i s
  | .i8 i => execI8 i s
  | .ia4 i a => execIa4 i a s
  | .ia8 i a => execIa8 i a s
  | .ia16 i a => execIa16 i a s
  | .ci4 n => execCi4 n s
  | .ci8 n => execCi8 n s
  | .rgba16 r g b a => execRgba16 r g b a s
  | .rgba32 r g b a => execRgba32 r g b a s
  | .decode => .refused .pixelExpected
  | .decodeWindow => .refused .pixelExpected
  | .colorFromU32 => .refused .pixelExpected
  | .colorFromU16 => .refused .pixelExpected
  | .colorToU32 => .refused .pixelExpected
  | .colorToU16 => .refused .pixelExpected
  | .colorRgb => .refused .pixelExpected

/-- The body of the raster loop: fetch pixel PIX, decode it by the latched format, run it (R193, R196). -/
def rasterStep (s : State) : Host.Outcome State Fault Refusal :=
  match s.raster with
  | none => .refused .noDecodeInProgress
  | some r =>
    match (r.slice s.src).fetch r.fmt r.pix with
    | none => .refused (.srcNotSupplied r.pix)
    | some raw => execPixel (decodePixel r.fmt raw) s

/-- `n` steps of the raster loop (R196). -/
def rasterLoop : Nat → State → Host.Outcome State Fault Refusal
  | 0, s => .next s
  | n + 1, s =>
    match rasterStep s with
    | .next t => rasterLoop n t
    | .fault e => .fault e
    | .refused e => .refused e

/-! ## The commands -/

/-- Latch the operands and stand at pixel 0: `PIX <- 0; Y <- 0; X <- 0` (R31, R190, R196). -/
def startRaster (f : Format) (base avail : Nat) (s : State) : State :=
  s.atPixel { fmt := f, w := s.width, h := s.height, base := base, avail := avail, pix := 0, x := 0, y := 0 }

/-- Whether a tile of `npix` pixels is more than the platform's DST can take (R266). -/
def overCapacity (max : Option Nat) (npix : Nat) : Bool :=
  match max with
  | none => false
  | some m => decide (m < npix)

/-- `DecodeCommon`: the tag test, the palette test, then the raster, refused "at the point where the loop would
start" if DST cannot take the tile (R193, R228, R266). -/
def decodeCommon (max : Option Nat) (base avail : Nat) (s : State) : Host.Outcome State Fault Refusal :=
  match Format.ofTag s.fmt with
  | none => .next (s.raise .unsupportedFormat)
  | some f =>
    if f.isPalette then .next (s.raise .unresolvedPaletteFormat)
    else if overCapacity max (tilePixels s.width s.height) then
      .refused (.destinationCapacity (tilePixels s.width s.height))
    else rasterLoop (tilePixels s.width s.height) (startRaster f base avail s)

/-- DECODE: the slice is all of SRC; OFFSET is ignored (R53, R190). -/
def execDecode (s : State) : Host.Outcome State Fault Refusal :=
  decodeCommon s.maxPixels 0 s.srcLen s

/-- DECODE_WINDOW: nothing to draw when OFFSET is at or past the end of SRC, decided before the format is looked at;
else the slice from OFFSET to the end (R191, R192). -/
def execDecodeWindow (s : State) : Host.Outcome State Fault Refusal :=
  if s.srcLen ≤ s.offset then .next (s.endWithout .nothingToDraw)
  else decodeCommon s.maxPixels s.offset (s.srcLen - s.offset) s

/-! ## The result as one function -/

/-- `Unpack(fmt, raw)` over an instruction; commands and the colour-index formats have no colour (R110 to R156). -/
def unpack : Instr → Option Color
  | .i1 i => some (unpackI1 i)
  | .i4 i => some (unpackI4 i)
  | .i8 i => some (unpackI8 i)
  | .ia4 i a => some (unpackIa4 i a)
  | .ia8 i a => some (unpackIa8 i a)
  | .ia16 i a => some (unpackIa16 i a)
  | .ci4 _ => none
  | .ci8 _ => none
  | .rgba16 r g b a => some (unpackRgba16 r g b a)
  | .rgba32 r g b a => some (unpackRgba32 r g b a)
  | .decode => none
  | .decodeWindow => none
  | .colorFromU32 => none
  | .colorFromU16 => none
  | .colorToU32 => none
  | .colorToU16 => none
  | .colorRgb => none

/-- `Unpack(fmt, raw)` of a raw value. -/
def unpackRaw (f : Format) (raw : Word) : Option Color := unpack (decodePixel f raw)

/-- `PixelColor(fmt, i)`, for either value of SHORT_FILL (R194, R197). R194 defines it for a direct format only; for CI4
and CI8, which fault before any pixel (R141, R142), the value here is DESIGN CHOICE (log 12), safe: under ZERO_RGBA a wholly
missing pixel is Color(0, 0, 0, 0) as for the rest, and anything else has no colour. No command calls this function. -/
def pixelColor (fill : ShortFill) (sl : Slice) (f : Format) (i : Nat) : Option Color :=
  match f.presence sl.avail i with
  | .whollyMissing =>
    match fill with
    | .zeroRgba => some ⟨0, 0, 0, 0⟩
    | .formatOfZero => unpackRaw f 0
  | .present => (sl.fetch f i).bind (unpackRaw f)
  | .partlyPresent => (sl.fetch f i).bind (unpackRaw f)

/-! ## The pad-or-truncate stage -/

/-- `Fit(seq, n)`: exactly `n` bytes, the excess dropped, a shortfall filled with 0x00 (R198). Already built into the
raster (R199), so no command calls it. -/
def fit (seq : List Byte) (n : Nat) : List Byte := (List.range n).map fun j => seq.getD j 0

/-- The bytes the unpacker makes of `n` pixels from pixel `i` on, stopping at the first wholly missing one: R199's
`P` when `i` is 0. For CI4 and CI8, which never reach the unpacker, the value is DESIGN CHOICE (log 12), safe; no command
calls this function. -/
def unpackedBytes (sl : Slice) (f : Format) : Nat → Nat → Option (List Byte)
  | 0, _ => some []
  | n + 1, i =>
    match f.presence sl.avail i with
    | .whollyMissing => some []
    | .present =>
      ((sl.fetch f i).bind (unpackRaw f)).bind fun c => (unpackedBytes sl f n (i + 1)).map (c.bytes ++ ·)
    | .partlyPresent =>
      ((sl.fetch f i).bind (unpackRaw f)).bind fun c => (unpackedBytes sl f n (i + 1)).map (c.bytes ++ ·)

end Sys2Proof.Machine
end

