-- ==== Sys2Proof/Machine/Dispatch.lean ====
section
/-! DEFINITION. The meaning of every row of the opcode table. -/

namespace Sys2Proof.Machine

def exec (i : Instr) (s : State) : Host.Outcome State Fault Refusal :=
  match i with
  -- one pixel each (R110 to R156)
  | .i1 v => Sys2Proof.Machine.execI1 v s
  | .i4 v => Sys2Proof.Machine.execI4 v s
  | .i8 v => Sys2Proof.Machine.execI8 v s
  | .ia4 v a => Sys2Proof.Machine.execIa4 v a s
  | .ia8 v a => Sys2Proof.Machine.execIa8 v a s
  | .ia16 v a => Sys2Proof.Machine.execIa16 v a s
  | .ci4 n => Sys2Proof.Machine.execCi4 n s
  | .ci8 n => Sys2Proof.Machine.execCi8 n s
  | .rgba16 r g b a => Sys2Proof.Machine.execRgba16 r g b a s
  | .rgba32 r g b a => Sys2Proof.Machine.execRgba32 r g b a s
  -- the commands (R171 to R175, R190, R191)
  | .decode => Sys2Proof.Machine.execDecode s
  | .decodeWindow => Sys2Proof.Machine.execDecodeWindow s
  | .colorFromU32 => Sys2Proof.Machine.execColorFromU32 s
  | .colorFromU16 => Sys2Proof.Machine.execColorFromU16 s
  | .colorToU32 => Sys2Proof.Machine.execColorToU32 s
  | .colorToU16 => Sys2Proof.Machine.execColorToU16 s
  | .colorRgb => Sys2Proof.Machine.execColorRgb s

end Sys2Proof.Machine
end

