-- ==== Sys2Proof/Machine/Host.lean ====
section
/-! DEFINITION. What each access of the host does (R20, R22, R23, R92, R94, R260), and the source's calls spelled out
as accesses (R95, R96). -/

namespace Sys2Proof.Machine

/-- A write to CMD: "The act of writing it is the command" (R34). A value that is not a command is reported as
IllegalCommand and does nothing else (R92, R224). -/
def commandWrite (c : Word) (s : State) : Host.Outcome State Fault Refusal :=
  match decodeCommand c with
  | some i => exec i s
  | none => .next (s.raise .illegalCommand)

/-- `WR` to an existing register: the interface carries exactly the register's width, so a wider value is no access a
host can make (R23); CMD starts a command, the rest is a register write. -/
def registerWrite (n : Nat) (r : Reg) (v : Nat) (s : State) : Host.Outcome State Fault Refusal :=
  if v < 2 ^ r.bits s.addrW then
    match r with
    | .cmd => commandWrite (BitVec.ofNat 32 v) s
    | .fmt => .next (s.writeReg .fmt v)
    | .width => .next (s.writeReg .width v)
    | .height => .next (s.writeReg .height v)
    | .offset => .next (s.writeReg .offset v)
    | .srcLen => .next (s.writeReg .srcLen v)
    | .color => .next (s.writeReg .color v)
    | .packed => .next (s.writeReg .packed v)
    | .status => .next (s.writeReg .status v)
    | .dstLen => .next (s.writeReg .dstLen v)
    | .outWidth => .next (s.writeReg .outWidth v)
    | .outHeight => .next (s.writeReg .outHeight v)
  else .refused (.hostValueTooWide n v)

/-- One access of the host, accepted between commands (R20, R21, R65). -/
def hostAccess (op : HostOp) (s : State) : Host.Outcome State Fault Refusal :=
  match op with
  | .wr n v =>
    match Reg.ofNumber n with
    | none => .next s
    | some r => registerWrite n r v s
  | .rd n => .next { s with reply := some (.register n (s.readReg n)) }
  | .srcLoad bytes =>
    if bytes.length ≤ 2 ^ s.addrW then .next { s with src := Memory.ofBytes bytes }
    else .fault (.srcIndexOutOfSpace bytes.length)
  | .srcPoke k b =>
    if k < 2 ^ s.addrW then .next { s with src := s.src.write k b }
    else .fault (.srcIndexOutOfSpace k)
  | .rdDst k =>
    match s.dstByte k with
    | some b => .next { s with reply := some (.dstByte k b) }
    | none => .refused (.dstNotValid k)
  | .reset => .next s.applyReset

/-! ## The source's calls (R95, R96) -/

/-- `decode(bytes, format, width, height)` (R95). -/
def callDecode (bytes : List Byte) (f : Format) (w h : Word) : List HostOp :=
  [.srcLoad bytes, .wr 4 bytes.length, .wr 0 f.tag.toNat, .wr 1 w.toNat, .wr 2 h.toNat, .wr 7 1, .rd 8]

/-- `decode_window(bytes, offset, format, width, height)` (R95). -/
def callDecodeWindow (bytes : List Byte) (offset : Nat) (f : Format) (w h : Word) : List HostOp :=
  [.srcLoad bytes, .wr 4 bytes.length, .wr 3 offset, .wr 0 f.tag.toNat, .wr 1 w.toNat, .wr 2 h.toNat, .wr 7 2, .rd 8]

/-- `Color::from_u32(x)` (R96). -/
def callFromU32 (x : Word) : List HostOp := [.wr 6 x.toNat, .wr 7 3, .rd 5]

/-- `Color::from_u16(h)` (R96). -/
def callFromU16 (h : BitVec 16) : List HostOp := [.wr 6 h.toNat, .wr 7 4, .rd 5]

/-- `Color::to_u32(c)` (R96). -/
def callToU32 (c : Color) : List HostOp := [.wr 5 c.word.toNat, .wr 7 5, .rd 6]

/-- `Color::to_u16(c)` (R96). -/
def callToU16 (c : Color) : List HostOp := [.wr 5 c.word.toNat, .wr 7 6, .rd 6]

/-- `Color::rgba(r, g, b, a)`: the literal RGBA, "no command needed" (R96, R170). -/
def callRgba (r g b a : Byte) : List HostOp := [.wr 5 (Color.mk r g b a).word.toNat]

/-- `Color::rgb(r, g, b)` (R96). -/
def callRgb (r g b : Byte) : List HostOp := [.wr 5 (Color.mk r g b 0).word.toNat, .wr 7 7, .rd 5]

end Sys2Proof.Machine
end

