-- ==== Sys2Proof/Machine/Fetch.lean ====
section
/-! DEFINITION. Where the next instruction comes from: inside a decode command, the pixel at PIX; between commands, the
next access of the host. And how one opcode-table word is put there. -/

namespace Sys2Proof.Machine

/-- The pixel instruction at the raster position: fetched from the slice, decoded by the latched format (R57, R83). -/
def fetchPixel (r : Raster) (src : Memory) : Option Instr :=
  ((r.slice src).fetch r.fmt r.pix).map (decodePixel r.fmt)

/-- A step inside a decode command: the pixel at PIX; the host's accesses wait (R21, R196). -/
def pixelStep (r : Raster) (s : State) : Host.Outcome State Fault Refusal :=
  match fetchPixel r s.src with
  | none => .refused (.srcNotSupplied r.pix)
  | some i => exec i s

/-- A step between commands: the host's next access; with none waiting "the block does nothing until told" (R260). -/
def idleStep (s : State) : Host.Outcome State Fault Refusal :=
  match s.host with
  | [] => .next s
  | op :: rest => hostAccess op { s with host := rest }

/-- The bytes of SRC in which a raw pixel of format `f` is pixel 0 of a slice: a sub-byte pixel in the most significant
bits of one byte, a longer one big-endian (R52, R57). -/
def rawBytes (f : Format) (raw : Word) : List Byte :=
  match f.bits with
  | 8 => [raw.extractLsb' 0 8]
  | 16 => [raw.extractLsb' 8 8, raw.extractLsb' 0 8]
  | 32 => [raw.extractLsb' 24 8, raw.extractLsb' 16 8, raw.extractLsb' 8 8, raw.extractLsb' 0 8]
  | n => [(raw <<< (8 - n)).extractLsb' 0 8]

/-- Stand inside the decode of a 1 by 1 tile of format `f`, its one pixel `raw` at byte 0 of SRC. -/
def State.withPixel (s : State) (f : Format) (raw : Word) : State :=
  { s with
    src := s.src.writeBytes 0 (rawBytes f raw)
    raster := some { fmt := f, w := 1, h := 1, base := 0, avail := f.bytes, pix := 0, x := 0, y := 0 } }

/-- Stand between commands with the write of `c` to CMD as the host's next access. -/
def State.withCommand (s : State) (c : Word) : State :=
  { s with raster := none, host := .wr 7 c.toNat :: s.host }

end Sys2Proof.Machine
end

