-- ==== Sys2Proof/Machine/Step.lean ====
section
/-! DEFINITION. One step of the machine, and the placing of one opcode-table word where the next step finds it. -/

namespace Sys2Proof.Machine

/-- One step: inside a decode command one pixel, between commands one access of the host (R20, R21, R196). -/
def step (s : State) : Host.Outcome State Fault Refusal :=
  match s.raster with
  | some r => pixelStep r s
  | none => idleStep s

/-- `s` with the instruction of a table word where `step` finds it next: a command as the host's next access, a pixel
at the raster position of a 1 by 1 tile (log 5). -/
def State.withFetchWord (s : State) (nbits w : Nat) : State :=
  let e := Encoded.ofTableWord .fmt w
  if nbits ≤ 16 then
    match Format.ofTag e.word with
    | some f => s.withPixel f e.raw
    | none => s.withCommand e.word
  else
    match decodeCommand e.word with
    | some _ => s.withCommand e.word
    | none =>
      match Format.ofTag e.word with
      | some f => s.withPixel f e.raw
      | none => s.withCommand e.word

end Sys2Proof.Machine
end

