-- ==== Sys2Proof/Safety.lean ====
section
/-! DEFINITION. What holds of the block between any two steps: the invariant that claims about runs rest on. -/

namespace Sys2Proof.Machine

/-- A decode in progress stands at a pixel of its tile, in row-major order (R29, R196), of a format that has colours
(R193), over a slice that lies in SRC (R53), whose addresses have `addrW` bits. -/
structure Raster.Inv (addrW : Nat) (r : Raster) : Prop where
  direct : r.fmt.isPalette = false
  inTile : r.pix < r.npix
  column : r.x < r.w.toNat
  row : r.y < r.h.toNat
  order : r.pix = r.y * r.w.toNat + r.x
  slice : r.base + r.avail < 2 ^ addrW

/-- The invariant of the block. -/
structure State.Inv (s : State) : Prop where
  /-- `ADDR_W` is 1 or more (R7). -/
  addrWPos : 1 ≤ s.addrW
  /-- OFFSET has ADDR_W bits (R22, R26). -/
  offsetBits : s.offset < 2 ^ s.addrW
  /-- SRC_LEN has ADDR_W bits (R22, R26). -/
  srcLenBits : s.srcLen < 2 ^ s.addrW
  /-- SRC is in canonical form. -/
  srcWf : s.src.wf
  /-- DST is in canonical form. -/
  dstWf : s.dst.wf
  /-- Every byte of SRC has an index of ADDR_W bits (R50). -/
  srcBound : ∀ c ∈ s.src, c.1 < 2 ^ s.addrW
  /-- Every byte of DST has an index of 66 bits (R51). -/
  dstBound : ∀ c ∈ s.dst, c.1 < 2 ^ Config.dstW
  /-- An image has exactly `OUT_WIDTH * OUT_HEIGHT * 4` bytes, all of them there (R35, R59, R200). -/
  image : s.status = .image →
    s.dstLen.toNat = 4 * tilePixels s.outWidth s.outHeight ∧ ∀ k < s.dstLen.toNat, (s.dst.read k).isSome
  /-- Any other result leaves the three result registers 0 (R35). -/
  noImage : s.status ≠ .image → s.dstLen = 0 ∧ s.outWidth = 0 ∧ s.outHeight = 0
  /-- A decode in progress is at a pixel of its tile, and has stored every pixel before it (R29, R196). -/
  raster : ∀ r, s.raster = some r → r.Inv s.addrW ∧ ∀ k < 4 * r.pix, (s.dst.read k).isSome
  /-- Neither an image nor a decode in progress has more pixels than MAX_PIXELS, where the platform sets it (R266). -/
  capacity : ∀ m, s.maxPixels = some m →
    (s.status = .image → tilePixels s.outWidth s.outHeight ≤ m) ∧ ∀ r, s.raster = some r → r.npix ≤ m

/-! ## What claims about a change of state are said in -/

/-- `n` steps of the machine, stopping at the first fault or refusal. -/
def run : Nat → State → Host.Outcome State Fault Refusal
  | 0, s => .next s
  | n + 1, s =>
    match step s with
    | .next t => run n t
    | .fault e => .fault e
    | .refused e => .refused e

/-- What no pixel and no decode command writes: the operand registers and the colour registers, SRC, and the host's
side (R24 to R28, R37, R91), nor what the platform fixes (R7). -/
structure KeepsOperands (s t : State) : Prop where
  addrW : t.addrW = s.addrW
  maxPixels : t.maxPixels = s.maxPixels
  fmt : t.fmt = s.fmt
  width : t.width = s.width
  height : t.height = s.height
  offset : t.offset = s.offset
  srcLen : t.srcLen = s.srcLen
  color : t.color = s.color
  packed : t.packed = s.packed
  src : t.src = s.src
  host : t.host = s.host
  reply : t.reply = s.reply

/-- DST holds colour `c` at pixel `i` (R51, R58). -/
def holdsPixel (dst : Memory) (i : Nat) (c : Color) : Prop :=
  dst.read (4 * i) = some c.r ∧ dst.read (4 * i + 1) = some c.g ∧
    dst.read (4 * i + 2) = some c.b ∧ dst.read (4 * i + 3) = some c.a

/-- Pixel PIX of the decode in progress was stored as `c`, and the raster moved on: to the next pixel, or, after the
last, to the end of the command with an image (R29, R58, R193, R196). -/
structure PixelDone (r : Raster) (c : Color) (s t : State) : Prop where
  keeps : KeepsOperands s t
  stored : holdsPixel t.dst r.pix c
  elsewhere : ∀ k, k < 4 * r.pix ∨ 4 * r.pix + 4 ≤ k → t.dst.read k = s.dst.read k
  goesOn : r.pix + 1 < r.w.toNat * r.h.toNat →
    t.raster = some { r with
      pix := r.pix + 1
      x := if r.x + 1 = r.w.toNat then 0 else r.x + 1
      y := if r.x + 1 = r.w.toNat then r.y + 1 else r.y } ∧
    t.status = s.status ∧ t.dstLen = s.dstLen ∧ t.outWidth = s.outWidth ∧ t.outHeight = s.outHeight
  ends : r.w.toNat * r.h.toNat ≤ r.pix + 1 →
    t.raster = none ∧ t.status = .image ∧ t.dstLen.toNat = 4 * (r.w.toNat * r.h.toNat) ∧
    t.outWidth = r.w ∧ t.outHeight = r.h

/-- The host supplied every byte of the slice that a tile of `npix` pixels needs (R60, R262, R263). -/
def Slice.supplied (sl : Slice) (f : Format) (npix : Nat) : Prop :=
  ∀ k, k < sl.avail → k < f.need npix → (sl.src.read (sl.base + k)).isSome

/-- A decode command over slice `sl` made its image (R193, R197). -/
structure ImageDone (f : Format) (sl : Slice) (s t : State) : Prop where
  keeps : KeepsOperands s t
  status : t.status = .image
  dstLen : t.dstLen.toNat = 4 * (s.width.toNat * s.height.toNat)
  outWidth : t.outWidth = s.width
  outHeight : t.outHeight = s.height
  raster : t.raster = none
  pixels : ∀ i < s.width.toNat * s.height.toNat,
    ∃ c, pixelColor Config.shortFill sl f i = some c ∧ holdsPixel t.dst i c
  elsewhere : ∀ k, 4 * (s.width.toNat * s.height.toNat) ≤ k → t.dst.read k = s.dst.read k

end Sys2Proof.Machine
end

