-- ==== Sys2Proof/Certificates/Slice0/Obligations.lean ====
section
/-! DEFINITION. The statements about the block, each from the rules of the spec. -/

open Sys2Proof Sys2Proof.Machine

/-! ## Encodings -/

/-- Decoding the encoding of an instruction gives it back, for every instruction and every operand (R83, R97). -/
def Obligations.DecodeOfEncode : Prop :=
  ∀ i : Instr, decode (encode i) = .ok i

/-- Bits that decode are the encoding of what they decode to: no two encodings of one instruction, no bit ignored. -/
def Obligations.EncodeOfDecode : Prop :=
  ∀ (e : Encoded) (i : Instr), decode e = .ok i → encode i = e

/-- Exactly the well-formed bits of a command word or a format tag decode (R81, R86, R90, R92). -/
def Obligations.DecodesExactlyTheTable : Prop :=
  ∀ e : Encoded, (∃ i, decode e = .ok i) ↔
    (e.selector = .cmd ∧ 1 ≤ e.word.toNat ∧ e.word.toNat ≤ 7 ∧ e.raw = 0) ∨
    (e.selector = .fmt ∧ ∃ f, Format.ofTag e.word = some f ∧ e.raw.toNat < 2 ^ f.bits)

/-- A few words written out from R83 and R90 decode to what they stand for. The places of the bits of IA4 are the spec's
own reading D10, the numbers of formats and commands its own decisions D3 and D4. -/
def Obligations.DecodesWordsOfTheSpec : Prop :=
  decode ⟨.fmt, 0x00000003, 0b1100⟩ = .ok (.ia4 6 0) ∧
  decode ⟨.fmt, 0x00000004, 0xA5⟩ = .ok (.ia8 0xA 0x5) ∧
  decode ⟨.fmt, 0x00000008, 0b1111100000000001⟩ = .ok (.rgba16 31 0 0 1) ∧
  decode ⟨.fmt, 0x00000009, 0x12345678⟩ = .ok (.rgba32 0x12 0x34 0x56 0x78) ∧
  decode ⟨.cmd, 0x00000002, 0⟩ = .ok .decodeWindow ∧
  decode ⟨.cmd, 0x00000011, 0⟩ = .error (.illegalCommand 0x11) ∧
  decode ⟨.fmt, 0x00000012, 0⟩ = .error (.unsupportedFormat 0x12)

/-- R81: the tags, all 32 bits compared. -/
def Obligations.FormatTagTable : Prop :=
  ∀ t : Word, Format.ofTag t =
    if t = 0 then some .i1 else if t = 1 then some .i4 else if t = 2 then some .i8
    else if t = 3 then some .ia4 else if t = 4 then some .ia8 else if t = 5 then some .ia16
    else if t = 6 then some .ci4 else if t = 7 then some .ci8 else if t = 8 then some .rgba16
    else if t = 9 then some .rgba32 else none

/-- R90: the command words, all 32 bits compared. -/
def Obligations.CommandWordTable : Prop :=
  ∀ c : Word, decodeCommand c =
    if c = 1 then some .decode else if c = 2 then some .decodeWindow else if c = 3 then some .colorFromU32
    else if c = 4 then some .colorFromU16 else if c = 5 then some .colorToU32 else if c = 6 then some .colorToU16
    else if c = 7 then some .colorRgb else none

/-- R82: `bits`, `nb`, `ppb` and `bpp` of each format. -/
def Obligations.FormatSizeTable : Prop :=
  [Format.i1, .i4, .i8, .ia4, .ia8, .ia16, .ci4, .ci8, .rgba16, .rgba32].map
      (fun f => (f.bits, f.bytes, f.pixelsPerByte)) =
    [(1, 1, 8), (4, 1, 2), (8, 1, 1), (4, 1, 2), (8, 1, 1), (16, 2, 1), (4, 1, 2), (8, 1, 1), (16, 2, 1), (32, 4, 1)] ∧
  [Format.i1, .i4, .i8, .ia4, .ia8, .ia16, .ci4, .ci8, .rgba16, .rgba32].map (fun f => (f.bits : ℚ) / 8) =
    [0.125, 0.5, 1, 0.5, 1, 2, 0.5, 1, 2, 4]

/-! ## Expansion -/

/-- R150 to R153: the four tables, entry by entry. -/
def Obligations.ExpansionTables : Prop :=
  ((List.range 32).map fun v => lut5 (BitVec.ofNat 5 v)) =
    [0x00, 0x08, 0x10, 0x18, 0x21, 0x29, 0x31, 0x39, 0x42, 0x4A, 0x52, 0x5A, 0x63, 0x6B, 0x73, 0x7B,
     0x84, 0x8C, 0x94, 0x9C, 0xA5, 0xAD, 0xB5, 0xBD, 0xC6, 0xCE, 0xD6, 0xDE, 0xE7, 0xEF, 0xF7, 0xFF] ∧
  ((List.range 8).map fun t => lut3 (BitVec.ofNat 3 t)) = [0x00, 0x24, 0x49, 0x6D, 0x92, 0xB6, 0xDB, 0xFF] ∧
  ((List.range 16).map fun n => lut4 (BitVec.ofNat 4 n)) =
    [0x00, 0x11, 0x22, 0x33, 0x44, 0x55, 0x66, 0x77, 0x88, 0x99, 0xAA, 0xBB, 0xCC, 0xDD, 0xEE, 0xFF] ∧
  lut1 0 = 0x00 ∧ lut1 1 = 0xFF

/-- R154: every expansion reaches both ends, is strictly increasing, keeps its argument in its top bits; and exactly
32 bytes survive narrowing to 5 bits and widening again. -/
def Obligations.ExpansionProperties : Prop :=
  (lut5 0 = 0 ∧ lut5 31 = 0xFF ∧ lut3 0 = 0 ∧ lut3 7 = 0xFF ∧ lut4 0 = 0 ∧ lut4 15 = 0xFF ∧
    lut1 0 = 0 ∧ lut1 1 = 0xFF) ∧
  ((∀ u v : BitVec 5, u < v → lut5 u < lut5 v) ∧ (∀ u v : BitVec 3, u < v → lut3 u < lut3 v) ∧
    (∀ u v : BitVec 4, u < v → lut4 u < lut4 v) ∧ (∀ u v : BitVec 1, u < v → lut1 u < lut1 v)) ∧
  ((∀ v : BitVec 5, (lut5 v).extractLsb' 3 5 = v) ∧ (∀ v : BitVec 3, (lut3 v).extractLsb' 5 3 = v) ∧
    (∀ v : BitVec 4, (lut4 v).extractLsb' 4 4 = v) ∧ (∀ v : BitVec 1, (lut1 v).extractLsb' 7 1 = v)) ∧
  (∀ c : Byte, lut5 (c.extractLsb' 3 5) = c ↔ ∃ v : BitVec 5, lut5 v = c)

/-- R113: an intensity pixel as the 32-bit value stored, `(v << 24) | (v << 16) | (v << 8) | 0xFF`. -/
def Obligations.IntensityPixelWord : Prop :=
  let packed (v : Byte) : Word :=
    (v.setWidth 32 <<< 24) ||| (v.setWidth 32 <<< 16) ||| (v.setWidth 32 <<< 8) ||| 0xFF
  (∀ i : BitVec 1, (unpackI1 i).word = packed (if i = 1 then 0xFF else 0x00)) ∧
  (∀ i : BitVec 4, (unpackI4 i).word = packed (i ++ (0 : BitVec 4))) ∧
  (∀ i : BitVec 8, (unpackI8 i).word = packed i)

/-! ## The source -/

/-- R54: a byte of the slice, or 0x00 beyond its end whatever SRC holds; an index used is below SRC_LEN. -/
def Obligations.SliceByteShortRead : Prop :=
  ∀ (sl : Slice) (k : Nat),
    (k < sl.avail → sl.byte k = sl.src.read (sl.base + k)) ∧ (sl.avail ≤ k → sl.byte k = some 0) ∧
    (∀ len : Nat, sl.avail = len - sl.base → k < sl.avail → sl.base + k < len)

/-- R56: bytes are assembled first byte most significant, whether present or missing, at any index. -/
def Obligations.SliceReadBigEndian : Prop :=
  ∀ (sl : Slice) (k : Nat) (b₀ b₁ b₂ b₃ : Byte), sl.byte k = some b₀ →
    sl.read k 1 = some (b₀.setWidth 32) ∧
    (sl.byte (k + 1) = some b₁ → sl.read k 2 = some ((0 : BitVec 16) ++ b₀ ++ b₁) ∧
      (sl.byte (k + 2) = some b₂ → sl.byte (k + 3) = some b₃ → sl.read k 4 = some (b₀ ++ b₁ ++ b₂ ++ b₃)))

/-- R57: where each format's pixel `i` is, by the fetched raw value's bits. -/
def Obligations.FetchPlacesPixels : Prop :=
  ∀ (sl : Slice) (i : Nat),
    (sl.fetch .i1 i = (sl.byte (i / 8)).map fun b => (BitVec.ofBool (b.getLsbD (7 - i % 8))).setWidth 32) ∧
    (∀ f, f.bits = 4 → sl.fetch f i = (sl.byte (i / 2)).map fun b =>
      (if i % 2 = 0 then b.extractLsb' 4 4 else b.extractLsb' 0 4).setWidth 32) ∧
    (∀ f, f.bits = 8 → sl.fetch f i = sl.read i 1) ∧
    (∀ f, f.bits = 16 → sl.fetch f i = sl.read (2 * i) 2) ∧
    (∀ f, f.bits = 32 → sl.fetch f i = sl.read (4 * i) 4)

/-- R55: the three classes, that only the 2-byte and 4-byte formats have partly present pixels, that pixels sharing a
byte share a class, and that missing stays missing. -/
def Obligations.PixelPresenceClasses : Prop :=
  ∀ (f : Format) (avail i j : Nat),
    (f.presence avail i = .present ↔ i * f.bits / 8 + max 1 (f.bits / 8) ≤ avail) ∧
    (f.presence avail i = .whollyMissing ↔ avail ≤ i * f.bits / 8) ∧
    (f.presence avail i = .partlyPresent ↔
      i * f.bits / 8 < avail ∧ avail < i * f.bits / 8 + max 1 (f.bits / 8)) ∧
    (f.presence avail i = .partlyPresent → f = .ia16 ∨ f = .rgba16 ∨ f = .rgba32) ∧
    (f.bits < 8 → i * f.bits / 8 = j * f.bits / 8 → f.presence avail i = f.presence avail j) ∧
    (i ≤ j → f.presence avail i ≠ .present → f.presence avail j ≠ .present) ∧
    (i ≤ j → f.presence avail i = .whollyMissing → f.presence avail j = .whollyMissing)

/-- The two readings of SHORT_FILL: a wholly missing pixel is Color(0, 0, 0, 0) under the one, which this hardware
has; under the other `PixelColor = Unpack(fmt, Fetch(fmt, i))` always; and they differ exactly for a wholly missing
pixel of I1, I4 or I8, where the other gives opaque black (R115, R133, R194). -/
def Obligations.ShortFillReadings : Prop :=
  Config.shortFill = .zeroRgba ∧
  ∀ (sl : Slice) (f : Format) (i : Nat), f.isPalette = false →
    (f.presence sl.avail i = .whollyMissing → pixelColor .zeroRgba sl f i = some ⟨0, 0, 0, 0⟩) ∧
    (f.presence sl.avail i ≠ .whollyMissing → pixelColor .zeroRgba sl f i = (sl.fetch f i).bind (unpackRaw f)) ∧
    pixelColor .formatOfZero sl f i = (sl.fetch f i).bind (unpackRaw f) ∧
    (f.presence sl.avail i = .whollyMissing → pixelColor .formatOfZero sl f i =
      some (if f = .i1 ∨ f = .i4 ∨ f = .i8 then ⟨0, 0, 0, 0xFF⟩ else ⟨0, 0, 0, 0⟩))

/-- R201: moving the window by one byte moves a sub-byte tile by the pixels of one byte, and an 8-bit tile by one
pixel. For CI4 and CI8 R194 gives no PixelColor: there it says only that the model's own total function (DESIGN CHOICE,
log 12) slides the same way. -/
def Obligations.WindowSlidesByWholeBytes : Prop :=
  ∀ (src : Memory) (base avail i : Nat) (f : Format), f.bits ≤ 8 →
    pixelColor Config.shortFill ⟨src, base + 1, avail⟩ f i =
      pixelColor Config.shortFill ⟨src, base, avail + 1⟩ f (i + 8 / f.bits)

/-! ## One pixel -/

/-- I1, I4 and I8 inside a decode command: the pixel is stored and the raster moves on; the colour is the format's
unless the pixel is wholly missing (R110, R111, R112, R194). Where another
format is latched, which no run brings about, the effect is DESIGN CHOICE (log 8). -/
def Obligations.IntensityPixelCompletes : Prop :=
  ∀ (s : State) (r : Raster), s.raster = some r →
    (∀ i : BitVec 1, ∃ t, exec (.i1 i) s = .next t ∧
      PixelDone r (if r.pix / 8 < r.avail then
        (if i = 1 then ⟨0xFF, 0xFF, 0xFF, 0xFF⟩ else ⟨0, 0, 0, 0xFF⟩) else ⟨0, 0, 0, 0⟩) s t) ∧
    (∀ i : BitVec 4, ∃ t, exec (.i4 i) s = .next t ∧
      PixelDone r (if r.pix / 2 < r.avail then
        ⟨i ++ (0 : BitVec 4), i ++ (0 : BitVec 4), i ++ (0 : BitVec 4), 0xFF⟩ else ⟨0, 0, 0, 0⟩) s t) ∧
    (∀ i : BitVec 8, ∃ t, exec (.i8 i) s = .next t ∧
      PixelDone r (if r.pix < r.avail then ⟨i, i, i, 0xFF⟩ else ⟨0, 0, 0, 0⟩) s t)

/-- IA4, IA8 and IA16 inside a decode command (R130, R131, R132, R194). Where another
format is latched, which no run brings about, the effect is DESIGN CHOICE (log 8). -/
def Obligations.IntensityAlphaPixelCompletes : Prop :=
  ∀ (s : State) (r : Raster), s.raster = some r →
    (∀ (i : BitVec 3) (a : BitVec 1), ∃ t, exec (.ia4 i a) s = .next t ∧
      PixelDone r (if r.pix / 2 < r.avail then
        (let v : Byte := i ++ i ++ i.extractLsb' 1 2
         ⟨v, v, v, if a = 1 then 0xFF else 0⟩) else ⟨0, 0, 0, 0⟩) s t) ∧
    (∀ i a : BitVec 4, ∃ t, exec (.ia8 i a) s = .next t ∧
      PixelDone r (if r.pix < r.avail then ⟨i ++ i, i ++ i, i ++ i, a ++ a⟩ else ⟨0, 0, 0, 0⟩) s t) ∧
    (∀ i a : BitVec 8, ∃ t, exec (.ia16 i a) s = .next t ∧
      PixelDone r (if 2 * r.pix < r.avail then ⟨i, i, i, a⟩ else ⟨0, 0, 0, 0⟩) s t)

/-- RGBA16 and RGBA32 inside a decode command (R155, R156, R194). Where another
format is latched, which no run brings about, the effect is DESIGN CHOICE (log 8). -/
def Obligations.DirectColorPixelCompletes : Prop :=
  ∀ (s : State) (r : Raster), s.raster = some r →
    (∀ (u v w : BitVec 5) (a : BitVec 1), ∃ t, exec (.rgba16 u v w a) s = .next t ∧
      PixelDone r (if 2 * r.pix < r.avail then
        ⟨u ++ u.extractLsb' 2 3, v ++ v.extractLsb' 2 3, w ++ w.extractLsb' 2 3, if a = 1 then 0xFF else 0⟩
        else ⟨0, 0, 0, 0⟩) s t) ∧
    (∀ u v w a : BitVec 8, ∃ t, exec (.rgba32 u v w a) s = .next t ∧
      PixelDone r (if 4 * r.pix < r.avail then ⟨u, v, w, a⟩ else ⟨0, 0, 0, 0⟩) s t)

/-- R110, R111, R112: from the byte of the slice to the colour in DST, in one step. -/
def Obligations.IntensityPixelFromSource : Prop :=
  ∀ (s : State) (r : Raster) (b : Byte), s.raster = some r →
    (r.fmt = .i1 → r.pix / 8 < r.avail → (r.slice s.src).byte (r.pix / 8) = some b →
      ∃ t, step s = .next t ∧
        PixelDone r (if b.getLsbD (7 - r.pix % 8) then ⟨0xFF, 0xFF, 0xFF, 0xFF⟩ else ⟨0, 0, 0, 0xFF⟩) s t) ∧
    (r.fmt = .i4 → r.pix / 2 < r.avail → (r.slice s.src).byte (r.pix / 2) = some b →
      ∃ t, step s = .next t ∧
        PixelDone r (let n : BitVec 4 := if r.pix % 2 = 0 then b.extractLsb' 4 4 else b.extractLsb' 0 4
          ⟨n ++ (0 : BitVec 4), n ++ (0 : BitVec 4), n ++ (0 : BitVec 4), 0xFF⟩) s t) ∧
    (r.fmt = .i8 → r.pix < r.avail → (r.slice s.src).byte r.pix = some b →
      ∃ t, step s = .next t ∧ PixelDone r ⟨b, b, b, 0xFF⟩ s t)

/-- R130, R131, R132: from the bytes of the slice, a missing alpha byte read as 0x00, to the colour in DST. -/
def Obligations.IntensityAlphaPixelFromSource : Prop :=
  ∀ (s : State) (r : Raster) (b c : Byte), s.raster = some r →
    (r.fmt = .ia4 → r.pix / 2 < r.avail → (r.slice s.src).byte (r.pix / 2) = some b →
      ∃ t, step s = .next t ∧
        PixelDone r (let n : BitVec 4 := if r.pix % 2 = 0 then b.extractLsb' 4 4 else b.extractLsb' 0 4
          let i : BitVec 3 := n.extractLsb' 1 3
          let v : Byte := i ++ i ++ i.extractLsb' 1 2
          ⟨v, v, v, if n.getLsbD 0 then 0xFF else 0x00⟩) s t) ∧
    (r.fmt = .ia8 → r.pix < r.avail → (r.slice s.src).byte r.pix = some b →
      ∃ t, step s = .next t ∧
        PixelDone r (let v : Byte := b.extractLsb' 4 4 ++ b.extractLsb' 4 4
          ⟨v, v, v, b.extractLsb' 0 4 ++ b.extractLsb' 0 4⟩) s t) ∧
    (r.fmt = .ia16 → 2 * r.pix < r.avail →
      (r.slice s.src).byte (2 * r.pix) = some b → (r.slice s.src).byte (2 * r.pix + 1) = some c →
      ∃ t, step s = .next t ∧ PixelDone r ⟨b, b, b, c⟩ s t)

/-- R155, R156: from the bytes of the slice, missing trailing bytes read as 0x00, to the colour in DST. -/
def Obligations.DirectColorPixelFromSource : Prop :=
  ∀ (s : State) (r : Raster) (b₀ b₁ b₂ b₃ : Byte), s.raster = some r →
    (r.fmt = .rgba16 → 2 * r.pix < r.avail →
      (r.slice s.src).byte (2 * r.pix) = some b₀ → (r.slice s.src).byte (2 * r.pix + 1) = some b₁ →
      ∃ t, step s = .next t ∧
        PixelDone r (let raw : BitVec 16 := b₀ ++ b₁
          ⟨raw.extractLsb' 11 5 ++ raw.extractLsb' 13 3, raw.extractLsb' 6 5 ++ raw.extractLsb' 8 3,
            raw.extractLsb' 1 5 ++ raw.extractLsb' 3 3, if raw.getLsbD 0 then 0xFF else 0x00⟩) s t) ∧
    (r.fmt = .rgba32 → 4 * r.pix < r.avail →
      (r.slice s.src).byte (4 * r.pix) = some b₀ → (r.slice s.src).byte (4 * r.pix + 1) = some b₁ →
      (r.slice s.src).byte (4 * r.pix + 2) = some b₂ → (r.slice s.src).byte (4 * r.pix + 3) = some b₃ →
      ∃ t, step s = .next t ∧ PixelDone r ⟨b₀, b₁, b₂, b₃⟩ s t)

/-- A wholly missing pixel is Color(0, 0, 0, 0) in every format that has colours, whatever SRC holds (R54, R194). -/
def Obligations.WhollyMissingPixelIsZero : Prop :=
  ∀ (s : State) (r : Raster), s.raster = some r → r.fmt.isPalette = false →
    r.avail ≤ r.pix * r.fmt.bits / 8 → ∃ t, step s = .next t ∧ PixelDone r ⟨0, 0, 0, 0⟩ s t

/-- R140, R141, R142: CI4 and CI8 raise UnresolvedPaletteFormat, as pixels and as the format of a decode of any tile
over any source, and nothing else changes. That a pixel of them, which no run reaches, raises it in every state, with or
without a decode in progress, is DESIGN CHOICE (log 13). -/
def Obligations.ColorIndexAlwaysFaults : Prop :=
  ∀ s : State,
    let t : State := { s with
      status := .fault .unresolvedPaletteFormat, dstLen := 0, outWidth := 0, outHeight := 0, raster := none }
    (∀ n, exec (.ci4 n) s = .next t) ∧ (∀ n, exec (.ci8 n) s = .next t) ∧
    (s.fmt = 6 ∨ s.fmt = 7 → exec .decode s = .next t ∧
      (s.offset < s.srcLen → exec .decodeWindow s = .next t))

/-! ## The decode commands -/

/-- R195, R197, R200: DECODE of a format that has colours makes the whole image, every pixel the colour PixelColor
gives, for every tile size that the platform's DST can take (R266) and, where MAX_PIXELS is not set, for every tile size;
provided the host supplied the bytes it promised (R263). -/
def Obligations.DecodeMakesTheImage : Prop :=
  ∀ (s : State) (f : Format), Format.ofTag s.fmt = some f → f.isPalette = false →
    (∀ m, s.maxPixels = some m → s.width.toNat * s.height.toNat ≤ m) →
    Slice.supplied ⟨s.src, 0, s.srcLen⟩ f (s.width.toNat * s.height.toNat) →
    ∃ t, exec .decode s = .next t ∧ ImageDone f ⟨s.src, 0, s.srcLen⟩ s t

/-- R191: DECODE_WINDOW, with OFFSET below SRC_LEN, makes the image of the slice from OFFSET to the end of SRC, for every
tile size that the platform's DST can take (R266). -/
def Obligations.DecodeWindowMakesTheImage : Prop :=
  ∀ (s : State) (f : Format), Format.ofTag s.fmt = some f → f.isPalette = false → s.offset < s.srcLen →
    (∀ m, s.maxPixels = some m → s.width.toNat * s.height.toNat ≤ m) →
    Slice.supplied ⟨s.src, s.offset, s.srcLen - s.offset⟩ f (s.width.toNat * s.height.toNat) →
    ∃ t, exec .decodeWindow s = .next t ∧ ImageDone f ⟨s.src, s.offset, s.srcLen - s.offset⟩ s t

/-- R192, R222: nothing to draw exactly when OFFSET is at or past SRC_LEN, whatever FMT and SRC hold, and never from
DECODE. -/
def Obligations.WindowPastTheEndDrawsNothing : Prop :=
  ∀ s : State,
    (s.srcLen ≤ s.offset → exec .decodeWindow s = .next { s with
      status := .nothingToDraw, dstLen := 0, outWidth := 0, outHeight := 0, raster := none }) ∧
    (s.offset < s.srcLen → ∀ t, exec .decodeWindow s = .next t → t.status ≠ .nothingToDraw) ∧
    (∀ t, exec .decode s = .next t → t.status ≠ .nothingToDraw)

/-- R86, R223: a decode command with a tag of 10 or more raises UnsupportedFormat and changes nothing else; the tag
stays in FMT. -/
def Obligations.UnknownTagFaults : Prop :=
  ∀ s : State, 10 ≤ s.fmt.toNat →
    let t : State := { s with
      status := .fault .unsupportedFormat, dstLen := 0, outWidth := 0, outHeight := 0, raster := none }
    exec .decode s = .next t ∧ (s.offset < s.srcLen → exec .decodeWindow s = .next t)

/-- With OFFSET = 0 and a nonempty source DECODE_WINDOW "behaves exactly as DECODE" (R191). -/
def Obligations.WindowAtZeroIsDecode : Prop :=
  ∀ s : State, s.offset = 0 → 1 ≤ s.srcLen → exec .decodeWindow s = exec .decode s

/-- R33, R35, R228: what any write to CMD leaves in STATUS, by the order of the checks, and in the result
registers. -/
def Obligations.CommandResults : Prop :=
  ∀ (s t : State) (v : Nat) (rest : List HostOp), s.raster = none → s.host = .wr 7 v :: rest → v < 2 ^ 32 →
    step s = .next t →
    t.status =
      (if v = 0 ∨ 7 < v then .fault .illegalCommand
       else if 3 ≤ v then .value
       else if v = 2 ∧ s.srcLen ≤ s.offset then .nothingToDraw
       else if 10 ≤ s.fmt.toNat then .fault .unsupportedFormat
       else if s.fmt = 6 ∨ s.fmt = 7 then .fault .unresolvedPaletteFormat
       else .image) ∧
    (t.status = .image → t.dstLen.toNat = 4 * (s.width.toNat * s.height.toNat) ∧
      t.outWidth = s.width ∧ t.outHeight = s.height) ∧
    (t.status ≠ .image → t.dstLen = 0 ∧ t.outWidth = 0 ∧ t.outHeight = 0 ∧ ∀ k, t.dstByte k = none)

/-- R266: with MAX_PIXELS set to any `m`, a decode that would make a larger image is refused; every other decode, of a
tile that fits, of an unknown tag or of a palette format, of any tile size, is as if it were not set; and DECODE and
DECODE_WINDOW are decodes under the platform's own MAX_PIXELS. -/
def Obligations.CapacityRefusesOnlyImages : Prop :=
  ∀ (m base avail : Nat) (s : State),
    (∀ f, Format.ofTag s.fmt = some f → f.isPalette = false → m < s.width.toNat * s.height.toNat →
      decodeCommon (some m) base avail s = .refused (.destinationCapacity (s.width.toNat * s.height.toNat))) ∧
    (s.width.toNat * s.height.toNat ≤ m ∨ Format.ofTag s.fmt = none ∨
        (∃ f, Format.ofTag s.fmt = some f ∧ f.isPalette = true) →
      decodeCommon (some m) base avail s = decodeCommon none base avail s) ∧
    (exec .decode s = decodeCommon s.maxPixels 0 s.srcLen s) ∧
    (s.offset < s.srcLen → exec .decodeWindow s = decodeCommon s.maxPixels s.offset (s.srcLen - s.offset) s)

/-- R263: a decode of a tile that DST can take, by DECODE or by DECODE_WINDOW with OFFSET below SRC_LEN, that needs a
byte below SRC_LEN which the host did not supply is refused. -/
def Obligations.UnsuppliedSourceIsRefused : Prop :=
  ∀ (s : State) (f : Format), Format.ofTag s.fmt = some f → f.isPalette = false →
    (∀ m, s.maxPixels = some m → s.width.toNat * s.height.toNat ≤ m) →
    (¬ Slice.supplied ⟨s.src, 0, s.srcLen⟩ f (s.width.toNat * s.height.toNat) →
      ∃ p, p < s.width.toNat * s.height.toNat ∧ exec .decode s = .refused (.srcNotSupplied p)) ∧
    (s.offset < s.srcLen →
      ¬ Slice.supplied ⟨s.src, s.offset, s.srcLen - s.offset⟩ f (s.width.toNat * s.height.toNat) →
      ∃ p, p < s.width.toNat * s.height.toNat ∧ exec .decodeWindow s = .refused (.srcNotSupplied p))

/-- Bytes of SRC outside `BASE .. BASE + min(NEED, AVAIL) - 1` have no influence on a decode: with them changed it
gives the same state but for SRC itself (R60). -/
def Obligations.DecodeReadsOnlyWhatItNeeds : Prop :=
  ∀ (s t : State) (m : Memory) (f : Format), Format.ofTag s.fmt = some f →
    (∀ k, k < s.srcLen → k < f.need (s.width.toNat * s.height.toNat) → m.read k = s.src.read k) →
    exec .decode s = .next t → exec .decode { s with src := m } = .next { t with src := m }

/-- The same for DECODE_WINDOW (R60). -/
def Obligations.DecodeWindowReadsOnlyWhatItNeeds : Prop :=
  ∀ (s t : State) (m : Memory) (f : Format), Format.ofTag s.fmt = some f →
    (∀ k, k < s.srcLen - s.offset → k < f.need (s.width.toNat * s.height.toNat) →
      m.read (s.offset + k) = s.src.read (s.offset + k)) →
    exec .decodeWindow s = .next t → exec .decodeWindow { s with src := m } = .next { t with src := m }

/-- R38: two commands on one platform with the same operand registers and the same SRC give the same results, whatever came before. -/
def Obligations.CommandsAreStateless : Prop :=
  ∀ (s s' t : State) (c : Word), s.maxPixels = s'.maxPixels →
    s.fmt = s'.fmt → s.width = s'.width → s.height = s'.height →
    s.offset = s'.offset → s.srcLen = s'.srcLen → s.color = s'.color → s.packed = s'.packed → s.src = s'.src →
    commandWrite c s = .next t → ∃ t', commandWrite c s' = .next t' ∧
      (∀ n, t.readReg n = t'.readReg n) ∧ ∀ k, t.dstByte k = t'.dstByte k

/-- The image depends on `NPIX` alone: the same for any factorisation into W and H (R196). -/
def Obligations.ImageIgnoresTileShape : Prop :=
  ∀ (s t : State) (w h : Word), w.toNat * h.toNat = s.width.toNat * s.height.toNat →
    exec .decode s = .next t → t.status = .image →
    ∃ t', exec .decode { s with width := w, height := h } = .next t' ∧ t'.status = .image ∧
      t'.dstLen = t.dstLen ∧ ∀ k, t'.dst.read k = t.dst.read k

/-- R29: where a decode in progress stands, and the one way its position changes. -/
def Obligations.RasterAdvancesInOrder : Prop :=
  ∀ (s : State) (r : Raster), s.Inv → s.raster = some r →
    (r.y < r.h.toNat ∧ r.x < r.w.toNat ∧ r.pix = r.y * r.w.toNat + r.x ∧ r.pix < r.w.toNat * r.h.toNat) ∧
    ∀ t, step s = .next t →
      (r.pix + 1 < r.w.toNat * r.h.toNat → t.raster = some { r with
        pix := r.pix + 1
        x := if r.x + 1 = r.w.toNat then 0 else r.x + 1
        y := if r.x + 1 = r.w.toNat then r.y + 1 else r.y }) ∧
      (r.pix + 1 = r.w.toNat * r.h.toNat → t.raster = none ∧ t.status = .image)

/-- R200: an image has exactly `OUT_WIDTH * OUT_HEIGHT * 4` bytes, and every one of them is this command's: the same
whatever DST held before. -/
def Obligations.ImageIsFresh : Prop :=
  ∀ (s t : State) (c : Word) (m : Memory), commandWrite c s = .next t → t.status = .image →
    t.dstLen.toNat = t.outWidth.toNat * t.outHeight.toNat * 4 ∧
    ∃ t', commandWrite c { s with dst := m } = .next t' ∧ t'.status = .image ∧ t'.dstLen = t.dstLen ∧
      ∀ k, k < t.dstLen.toNat → ∃ b, t.dst.read k = some b ∧ t'.dst.read k = some b

/-- R196, R21: the raster loop run one step of the machine per pixel, from the position where DECODE, or DECODE_WINDOW
with OFFSET below SRC_LEN, starts it, ends after exactly NPIX steps in the very state the command answers. That the
machine can also stand inside a decode is DEDUCED from R21 (log 8). -/
def Obligations.StepwiseRasterIsDecode : Prop :=
  ∀ (s t : State) (f : Format), Format.ofTag s.fmt = some f → f.isPalette = false →
    (exec .decode s = .next t →
      run (s.width.toNat * s.height.toNat) (startRaster f 0 s.srcLen s) = .next t) ∧
    (s.offset < s.srcLen → exec .decodeWindow s = .next t →
      run (s.width.toNat * s.height.toNat) (startRaster f s.offset (s.srcLen - s.offset) s) = .next t)

/-- R198: `Fit` gives exactly `n` bytes, the sequence's where it has them and 0x00 beyond, and twice is once. -/
def Obligations.FitPadsOrTruncates : Prop :=
  ∀ (l : List Byte) (n : Nat),
    (fit l n).length = n ∧ (∀ j, j < n → (fit l n)[j]? = some (if j < l.length then l.getD j 0 else 0)) ∧
    (l.length = n → fit l n = l) ∧ fit (fit l n) n = fit l n

/-- R199, under its own condition SHORT_FILL = ZERO_RGBA, which this hardware has (the spec's own decision D7; log 3): the
image of DECODE, and of DECODE_WINDOW, is `Fit(P, 4 * NPIX)`, where `P` is what the unpacker makes before the first
wholly missing pixel. -/
def Obligations.ImageIsThePaddedUnpacking : Prop :=
  Config.shortFill = .zeroRgba ∧
  ∀ (s t : State) (f : Format), Format.ofTag s.fmt = some f → t.status = .image →
    (exec .decode s = .next t →
      ∃ l, unpackedBytes ⟨s.src, 0, s.srcLen⟩ f (s.width.toNat * s.height.toNat) 0 = some l ∧
        ∀ k, k < 4 * (s.width.toNat * s.height.toNat) →
          t.dst.read k = (fit l (4 * (s.width.toNat * s.height.toNat)))[k]?) ∧
    (exec .decodeWindow s = .next t →
      ∃ l, unpackedBytes ⟨s.src, s.offset, s.srcLen - s.offset⟩ f (s.width.toNat * s.height.toNat) 0 = some l ∧
        ∀ k, k < 4 * (s.width.toNat * s.height.toNat) →
          t.dst.read k = (fit l (4 * (s.width.toNat * s.height.toNat)))[k]?)

/-! ## The colour commands -/

/-- R171 to R175, R177: the new state of each colour command, whole. -/
def Obligations.ColorCommandResults : Prop :=
  ∀ s : State,
    let done (s : State) : State :=
      { s with status := .value, dstLen := 0, outWidth := 0, outHeight := 0, raster := none }
    exec .colorFromU32 s = .next (done { s with color := s.packed }) ∧
    exec .colorFromU16 s = .next (done { s with
      color := s.packed.extractLsb' 11 5 ++ s.packed.extractLsb' 13 3 ++ s.packed.extractLsb' 6 5 ++
        s.packed.extractLsb' 8 3 ++ s.packed.extractLsb' 1 5 ++ s.packed.extractLsb' 3 3 ++
        (if s.packed.getLsbD 0 then 0xFF else 0x00 : Byte) }) ∧
    exec .colorToU32 s = .next (done { s with packed := s.color }) ∧
    exec .colorToU16 s = .next (done { s with
      packed := (0 : BitVec 16) ++ s.color.extractLsb' 27 5 ++ s.color.extractLsb' 19 5 ++
        s.color.extractLsb' 11 5 ++ s.color.extractLsb' 7 1 }) ∧
    exec .colorRgb s = .next (done { s with color := s.color.extractLsb' 8 24 ++ (0xFF : Byte) })

/-- R170: the literal RGBA is a write to COLOR; no command runs and nothing else changes. -/
def Obligations.LiteralRgbaIsAWrite : Prop :=
  ∀ (s : State) (r g b a : Byte) (rest : List HostOp), s.raster = none →
    s.host = .wr 5 (r ++ g ++ b ++ a).toNat :: rest →
    step s = .next { s with color := r ++ g ++ b ++ a, host := rest }

/-- R176: the round trips of the colour commands, exact in 32 bits and from 16 bits, and exact from a colour exactly
when its channels are entries of LUT5 and its alpha is 0x00 or 0xFF. -/
def Obligations.ColorRoundTrips : Prop :=
  ∀ s t u : State,
    (exec .colorToU32 s = .next t → exec .colorFromU32 t = .next u → u.color = s.color) ∧
    (exec .colorFromU32 s = .next t → exec .colorToU32 t = .next u → u.packed = s.packed) ∧
    (exec .colorFromU16 s = .next t → exec .colorToU16 t = .next u →
      u.packed = (s.packed.extractLsb' 0 16).setWidth 32) ∧
    (exec .colorToU16 s = .next t → exec .colorFromU16 t = .next u →
      (u.color = s.color ↔
        (∃ v, lut5 v = s.color.extractLsb' 24 8) ∧ (∃ v, lut5 v = s.color.extractLsb' 16 8) ∧
        (∃ v, lut5 v = s.color.extractLsb' 8 8) ∧
        (s.color.extractLsb' 0 8 = 0x00 ∨ s.color.extractLsb' 0 8 = 0xFF)))

/-! ## Registers, STATUS and the host -/

/-- R39: after reset, on every platform, every register reads 0, STATUS says NONE, FMT names I1 and no byte of DST is
valid; `State.reset` is that of one platform (log 1, log 2). -/
def Obligations.ResetState : Prop :=
  (∀ (addrW : Nat) (maxPixels : Option Nat),
    (∀ n, (State.resetOn addrW maxPixels).readReg n = 0) ∧ (State.resetOn addrW maxPixels).status = .none ∧
      Format.ofTag (State.resetOn addrW maxPixels).fmt = some .i1 ∧
      ∀ k, (State.resetOn addrW maxPixels).dstByte k = none) ∧
  State.reset = State.resetOn Config.suggestedAddrW Config.defaultMaxPixels

/-- R260: reset from any state between commands; it and commands alone change STATUS; with nothing asked the block
does nothing. -/
def Obligations.ResetAndIdle : Prop :=
  ∀ s : State, s.raster = none →
    (∀ rest, s.host = .reset :: rest → ∃ t, step s = .next t ∧ (∀ n, t.readReg n = 0) ∧ t.raster = none ∧
      t.src = s.src ∧ t.dst = s.dst ∧ t.host = rest ∧ t.reply = s.reply ∧ t.addrW = s.addrW ∧
      t.maxPixels = s.maxPixels ∧ ∀ k, t.dstByte k = none) ∧
    (∀ op rest t, s.host = op :: rest → op ≠ .reset → (∀ v, op ≠ .wr 7 v) → step s = .next t →
      t.status = s.status) ∧
    (s.host = [] → step s = .next s)

/-- R23: what a host reads and writes, register by register. -/
def Obligations.RegisterAccess : Prop :=
  ∀ (s : State) (n v : Nat) (rest : List HostOp), s.raster = none →
    (s.host = .rd n :: rest → step s = .next { s with host := rest, reply := some (.register n (s.readReg n)) }) ∧
    (s.host = .wr n v :: rest → n ≤ 6 → v < 2 ^ (if n = 3 ∨ n = 4 then s.addrW else 32) →
      ∃ t, step s = .next t ∧ t.readReg n = v ∧ (∀ m, m ≠ n → t.readReg m = s.readReg m) ∧
        t.status = s.status ∧ t.src = s.src ∧ t.dst = s.dst ∧ t.raster = none ∧ t.host = rest ∧ t.reply = s.reply ∧
        t.addrW = s.addrW ∧ t.maxPixels = s.maxPixels) ∧
    (s.host = .wr n v :: rest → 8 ≤ n → n ≤ 11 → v < 2 ^ (if n = 9 then 66 else 32) →
      step s = .next { s with host := rest }) ∧
    s.readReg 7 = 0 ∧
    (11 < n → s.readReg n = 0 ∧ (s.host = .wr n v :: rest → step s = .next { s with host := rest }))

/-- What the host cannot do stops the machine by name: a value wider than the register, a byte of SRC beyond ADDR_W
bits, a byte of DST that is not valid (R23, R50, R59; log 7). -/
def Obligations.HostMisuseStops : Prop :=
  ∀ (s : State) (n v : Nat) (b : Byte) (bytes : List Byte) (rest : List HostOp), s.raster = none →
    (∀ r, s.host = .wr n v :: rest → Reg.ofNumber n = some r → 2 ^ r.bits s.addrW ≤ v →
      step s = .refused (.hostValueTooWide n v)) ∧
    (s.host = .srcPoke n b :: rest → 2 ^ s.addrW ≤ n → step s = .fault (.srcIndexOutOfSpace n)) ∧
    (s.host = .srcLoad bytes :: rest → 2 ^ s.addrW < bytes.length →
      step s = .fault (.srcIndexOutOfSpace bytes.length)) ∧
    (s.host = .rdDst n :: rest → s.status ≠ .image ∨ s.dstLen.toNat ≤ n → step s = .refused (.dstNotValid n))

/-- The host's writes to SRC put exactly those bytes there and touch nothing else (R20, R37, R94). -/
def Obligations.HostSuppliesSource : Prop :=
  ∀ (s : State) (k : Nat) (b : Byte) (bytes : List Byte) (rest : List HostOp), s.raster = none →
    (s.host = .srcPoke k b :: rest → k < 2 ^ s.addrW →
      ∃ m, step s = .next { s with src := m, host := rest } ∧ m.read k = some b ∧
        ∀ j, j ≠ k → m.read j = s.src.read j) ∧
    (s.host = .srcLoad bytes :: rest → bytes.length ≤ 2 ^ s.addrW →
      ∃ m, step s = .next { s with src := m, host := rest } ∧ ∀ j, m.read j = bytes[j]?)

/-- R59: a host reads a byte of DST exactly when the last command left an image and the byte is below DST_LEN. -/
def Obligations.DstValidity : Prop :=
  ∀ (s : State) (k : Nat) (rest : List HostOp), s.Inv → s.raster = none → s.host = .rdDst k :: rest →
    (s.status = .image → k < s.dstLen.toNat →
      ∃ b, s.dst.read k = some b ∧ step s = .next { s with host := rest, reply := some (.dstByte k b) }) ∧
    (s.status ≠ .image ∨ s.dstLen.toNat ≤ k → step s = .refused (.dstNotValid k))

/-- The bits of STATUS for each thing it can say; no other value is ever read (R32, R220). -/
def Obligations.StatusWords : Prop :=
  Status.word .none = 0x00 ∧ Status.word .image = 0x01 ∧ Status.word .nothingToDraw = 0x02 ∧
  Status.word .value = 0x04 ∧ Status.word (.fault .unresolvedPaletteFormat) = 0x13 ∧
  Status.word (.fault .unsupportedFormat) = 0x23 ∧ Status.word (.fault .illegalCommand) = 0x33

/-- R92, R224: any value written to CMD but 1 to 7 is reported as IllegalCommand and changes nothing else. -/
def Obligations.IllegalCommandIsReported : Prop :=
  ∀ (s : State) (v : Nat) (rest : List HostOp), s.raster = none → s.host = .wr 7 v :: rest →
    v < 2 ^ 32 → v = 0 ∨ 7 < v →
    step s = .next { s with
      status := .fault .illegalCommand, dstLen := 0, outWidth := 0, outHeight := 0, host := rest }

/-- R226: when a command ends in a fault, it changed STATUS, DST_LEN, OUT_WIDTH and OUT_HEIGHT, and nothing else. -/
def Obligations.FaultChangesNothingElse : Prop :=
  ∀ (s t : State) (c : Word) (e : Cause), s.raster = none → commandWrite c s = .next t → t.status = .fault e →
    t = { s with status := .fault e, dstLen := 0, outWidth := 0, outHeight := 0 }

/-! ## Steps -/

/-- Between commands, a write to CMD of bits that decode to `i` makes the step `exec i`, the access accepted. -/
def Obligations.StepRunsTheCommand : Prop :=
  ∀ (s : State) (c : Word) (i : Instr) (rest : List HostOp), s.raster = none → s.host = .wr 7 c.toNat :: rest →
    decode ⟨.cmd, c, 0⟩ = .ok i → step s = exec i { s with host := rest }

/-- Inside a decode command, the step is `exec` of the pixel that the fetched bits decode to, or the refusal of a byte
the host did not supply. -/
def Obligations.StepRunsThePixel : Prop :=
  ∀ (s : State) (r : Raster), s.raster = some r →
    (∀ raw i, (r.slice s.src).fetch r.fmt r.pix = some raw → decode ⟨.fmt, r.fmt.tag, raw⟩ = .ok i →
      step s = exec i s) ∧
    ((r.slice s.src).fetch r.fmt r.pix = none → step s = .refused (.srcNotSupplied r.pix))

/-- Every raw value the machine fetches is a well-formed operand of its format (R57, R85). -/
def Obligations.FetchedPixelsDecode : Prop :=
  ∀ (sl : Slice) (f : Format) (i : Nat) (raw : Word), sl.fetch f i = some raw →
    raw.toNat < 2 ^ f.bits ∧ decode ⟨.fmt, f.tag, raw⟩ = .ok (decodePixel f raw)

/-- While a decode command is in progress no access of the host is accepted, and no operand register, COLOR, PACKED or
byte of SRC changes (R21, R31, R91). -/
def Obligations.HostWaitsForTheCommand : Prop :=
  ∀ s t : State, s.raster ≠ none → step s = .next t → KeepsOperands s t

/-- The invariant holds after reset, on every platform whose ADDR_W is 1 or more (R7, R39). -/
def Obligations.ResetMeetsTheInvariant : Prop :=
  (∀ (addrW : Nat) (maxPixels : Option Nat), 1 ≤ addrW → (State.resetOn addrW maxPixels).Inv) ∧ State.reset.Inv

/-- Every step keeps the invariant: canonical memories, OFFSET and SRC_LEN of ADDR_W bits, an image of exactly its
length, results of 0 otherwise, a raster position inside its tile with every earlier pixel stored, and no tile larger
than the platform's DST (R26, R29, R35, R59, R196, R200, R266); and no step changes what the platform fixes (R7). -/
def Obligations.StepKeepsTheInvariant : Prop :=
  ∀ s t : State, s.Inv → step s = .next t → t.Inv ∧ t.addrW = s.addrW ∧ t.maxPixels = s.maxPixels

/-- R30: no counter of a decode in progress can exceed its width. -/
def Obligations.CountersCannotWrap : Prop :=
  ∀ (s : State) (r : Raster), s.Inv → s.raster = some r →
    r.x < 2 ^ 32 ∧ r.y < 2 ^ 32 ∧ r.pix < 2 ^ 64 ∧ r.pix + 1 ≤ 2 ^ 64 ∧ r.pix * r.fmt.bits < 2 ^ 69 ∧
      r.pix * r.fmt.bits / 8 + r.fmt.bytes ≤ 2 ^ 66 ∧ 4 * r.pix + 3 < 2 ^ 66 ∧ 4 * r.npix < 2 ^ 66
end

