-- ==== Sys2Proof/Laws/State.lean ====
section
/-! SUPPORT. One lemma per field per named update of State, so that no later proof unfolds an update. -/

namespace Sys2Proof.Machine

/-! ## The end of a command -/

@[simp] theorem State.endCommand_addrW (s : State) (st : Status) (len : Nat) (w h : Word) :
    (s.endCommand st len w h).addrW = s.addrW := rfl

@[simp] theorem State.endCommand_maxPixels (s : State) (st : Status) (len : Nat) (w h : Word) :
    (s.endCommand st len w h).maxPixels = s.maxPixels := rfl

@[simp] theorem State.endCommand_fmt (s : State) (st : Status) (len : Nat) (w h : Word) :
    (s.endCommand st len w h).fmt = s.fmt := rfl

@[simp] theorem State.endCommand_width (s : State) (st : Status) (len : Nat) (w h : Word) :
    (s.endCommand st len w h).width = s.width := rfl

@[simp] theorem State.endCommand_height (s : State) (st : Status) (len : Nat) (w h : Word) :
    (s.endCommand st len w h).height = s.height := rfl

@[simp] theorem State.endCommand_offset (s : State) (st : Status) (len : Nat) (w h : Word) :
    (s.endCommand st len w h).offset = s.offset := rfl

@[simp] theorem State.endCommand_srcLen (s : State) (st : Status) (len : Nat) (w h : Word) :
    (s.endCommand st len w h).srcLen = s.srcLen := rfl

@[simp] theorem State.endCommand_color (s : State) (st : Status) (len : Nat) (w h : Word) :
    (s.endCommand st len w h).color = s.color := rfl

@[simp] theorem State.endCommand_packed (s : State) (st : Status) (len : Nat) (w h : Word) :
    (s.endCommand st len w h).packed = s.packed := rfl

@[simp] theorem State.endCommand_status (s : State) (st : Status) (len : Nat) (w h : Word) :
    (s.endCommand st len w h).status = st := rfl

@[simp] theorem State.endCommand_dstLen (s : State) (st : Status) (len : Nat) (w h : Word) :
    (s.endCommand st len w h).dstLen = BitVec.ofNat Config.dstW len := rfl

@[simp] theorem State.endCommand_outWidth (s : State) (st : Status) (len : Nat) (w h : Word) :
    (s.endCommand st len w h).outWidth = w := rfl

@[simp] theorem State.endCommand_outHeight (s : State) (st : Status) (len : Nat) (w h : Word) :
    (s.endCommand st len w h).outHeight = h := rfl

@[simp] theorem State.endCommand_src (s : State) (st : Status) (len : Nat) (w h : Word) :
    (s.endCommand st len w h).src = s.src := rfl

@[simp] theorem State.endCommand_dst (s : State) (st : Status) (len : Nat) (w h : Word) :
    (s.endCommand st len w h).dst = s.dst := rfl

@[simp] theorem State.endCommand_raster (s : State) (st : Status) (len : Nat) (w h : Word) :
    (s.endCommand st len w h).raster = none := rfl

@[simp] theorem State.endCommand_host (s : State) (st : Status) (len : Nat) (w h : Word) :
    (s.endCommand st len w h).host = s.host := rfl

@[simp] theorem State.endCommand_reply (s : State) (st : Status) (len : Nat) (w h : Word) :
    (s.endCommand st len w h).reply = s.reply := rfl

/-! ## The end of a command without an image -/

@[simp] theorem State.endWithout_addrW (s : State) (st : Status) :
    (s.endWithout st).addrW = s.addrW := rfl

@[simp] theorem State.endWithout_maxPixels (s : State) (st : Status) :
    (s.endWithout st).maxPixels = s.maxPixels := rfl

@[simp] theorem State.endWithout_fmt (s : State) (st : Status) :
    (s.endWithout st).fmt = s.fmt := rfl

@[simp] theorem State.endWithout_width (s : State) (st : Status) :
    (s.endWithout st).width = s.width := rfl

@[simp] theorem State.endWithout_height (s : State) (st : Status) :
    (s.endWithout st).height = s.height := rfl

@[simp] theorem State.endWithout_offset (s : State) (st : Status) :
    (s.endWithout st).offset = s.offset := rfl

@[simp] theorem State.endWithout_srcLen (s : State) (st : Status) :
    (s.endWithout st).srcLen = s.srcLen := rfl

@[simp] theorem State.endWithout_color (s : State) (st : Status) :
    (s.endWithout st).color = s.color := rfl

@[simp] theorem State.endWithout_packed (s : State) (st : Status) :
    (s.endWithout st).packed = s.packed := rfl

@[simp] theorem State.endWithout_status (s : State) (st : Status) :
    (s.endWithout st).status = st := rfl

@[simp] theorem State.endWithout_dstLen (s : State) (st : Status) :
    (s.endWithout st).dstLen = 0 := rfl

@[simp] theorem State.endWithout_outWidth (s : State) (st : Status) :
    (s.endWithout st).outWidth = 0 := rfl

@[simp] theorem State.endWithout_outHeight (s : State) (st : Status) :
    (s.endWithout st).outHeight = 0 := rfl

@[simp] theorem State.endWithout_src (s : State) (st : Status) :
    (s.endWithout st).src = s.src := rfl

@[simp] theorem State.endWithout_dst (s : State) (st : Status) :
    (s.endWithout st).dst = s.dst := rfl

@[simp] theorem State.endWithout_raster (s : State) (st : Status) :
    (s.endWithout st).raster = none := rfl

@[simp] theorem State.endWithout_host (s : State) (st : Status) :
    (s.endWithout st).host = s.host := rfl

@[simp] theorem State.endWithout_reply (s : State) (st : Status) :
    (s.endWithout st).reply = s.reply := rfl

/-! ## A fault -/

@[simp] theorem State.raise_addrW (s : State) (c : Cause) :
    (s.raise c).addrW = s.addrW := rfl

@[simp] theorem State.raise_maxPixels (s : State) (c : Cause) :
    (s.raise c).maxPixels = s.maxPixels := rfl

@[simp] theorem State.raise_fmt (s : State) (c : Cause) :
    (s.raise c).fmt = s.fmt := rfl

@[simp] theorem State.raise_width (s : State) (c : Cause) :
    (s.raise c).width = s.width := rfl

@[simp] theorem State.raise_height (s : State) (c : Cause) :
    (s.raise c).height = s.height := rfl

@[simp] theorem State.raise_offset (s : State) (c : Cause) :
    (s.raise c).offset = s.offset := rfl

@[simp] theorem State.raise_srcLen (s : State) (c : Cause) :
    (s.raise c).srcLen = s.srcLen := rfl

@[simp] theorem State.raise_color (s : State) (c : Cause) :
    (s.raise c).color = s.color := rfl

@[simp] theorem State.raise_packed (s : State) (c : Cause) :
    (s.raise c).packed = s.packed := rfl

@[simp] theorem State.raise_status (s : State) (c : Cause) :
    (s.raise c).status = .fault c := rfl

@[simp] theorem State.raise_dstLen (s : State) (c : Cause) :
    (s.raise c).dstLen = 0 := rfl

@[simp] theorem State.raise_outWidth (s : State) (c : Cause) :
    (s.raise c).outWidth = 0 := rfl

@[simp] theorem State.raise_outHeight (s : State) (c : Cause) :
    (s.raise c).outHeight = 0 := rfl

@[simp] theorem State.raise_src (s : State) (c : Cause) :
    (s.raise c).src = s.src := rfl

@[simp] theorem State.raise_dst (s : State) (c : Cause) :
    (s.raise c).dst = s.dst := rfl

@[simp] theorem State.raise_raster (s : State) (c : Cause) :
    (s.raise c).raster = none := rfl

@[simp] theorem State.raise_host (s : State) (c : Cause) :
    (s.raise c).host = s.host := rfl

@[simp] theorem State.raise_reply (s : State) (c : Cause) :
    (s.raise c).reply = s.reply := rfl

/-! ## The end of a decode with an image -/

@[simp] theorem State.finishImage_addrW (s : State) (r : Raster) :
    (s.finishImage r).addrW = s.addrW := rfl

@[simp] theorem State.finishImage_maxPixels (s : State) (r : Raster) :
    (s.finishImage r).maxPixels = s.maxPixels := rfl

@[simp] theorem State.finishImage_fmt (s : State) (r : Raster) :
    (s.finishImage r).fmt = s.fmt := rfl

@[simp] theorem State.finishImage_width (s : State) (r : Raster) :
    (s.finishImage r).width = s.width := rfl

@[simp] theorem State.finishImage_height (s : State) (r : Raster) :
    (s.finishImage r).height = s.height := rfl

@[simp] theorem State.finishImage_offset (s : State) (r : Raster) :
    (s.finishImage r).offset = s.offset := rfl

@[simp] theorem State.finishImage_srcLen (s : State) (r : Raster) :
    (s.finishImage r).srcLen = s.srcLen := rfl

@[simp] theorem State.finishImage_color (s : State) (r : Raster) :
    (s.finishImage r).color = s.color := rfl

@[simp] theorem State.finishImage_packed (s : State) (r : Raster) :
    (s.finishImage r).packed = s.packed := rfl

@[simp] theorem State.finishImage_status (s : State) (r : Raster) :
    (s.finishImage r).status = .image := rfl

@[simp] theorem State.finishImage_dstLen (s : State) (r : Raster) :
    (s.finishImage r).dstLen = BitVec.ofNat Config.dstW (4 * r.npix) := rfl

@[simp] theorem State.finishImage_outWidth (s : State) (r : Raster) :
    (s.finishImage r).outWidth = r.w := rfl

@[simp] theorem State.finishImage_outHeight (s : State) (r : Raster) :
    (s.finishImage r).outHeight = r.h := rfl

@[simp] theorem State.finishImage_src (s : State) (r : Raster) :
    (s.finishImage r).src = s.src := rfl

@[simp] theorem State.finishImage_dst (s : State) (r : Raster) :
    (s.finishImage r).dst = s.dst := rfl

@[simp] theorem State.finishImage_raster (s : State) (r : Raster) :
    (s.finishImage r).raster = none := rfl

@[simp] theorem State.finishImage_host (s : State) (r : Raster) :
    (s.finishImage r).host = s.host := rfl

@[simp] theorem State.finishImage_reply (s : State) (r : Raster) :
    (s.finishImage r).reply = s.reply := rfl

/-! ## Reset -/

@[simp] theorem State.applyReset_addrW (s : State) :
    (s.applyReset).addrW = s.addrW := rfl

@[simp] theorem State.applyReset_maxPixels (s : State) :
    (s.applyReset).maxPixels = s.maxPixels := rfl

@[simp] theorem State.applyReset_fmt (s : State) :
    (s.applyReset).fmt = 0 := rfl

@[simp] theorem State.applyReset_width (s : State) :
    (s.applyReset).width = 0 := rfl

@[simp] theorem State.applyReset_height (s : State) :
    (s.applyReset).height = 0 := rfl

@[simp] theorem State.applyReset_offset (s : State) :
    (s.applyReset).offset = 0 := rfl

@[simp] theorem State.applyReset_srcLen (s : State) :
    (s.applyReset).srcLen = 0 := rfl

@[simp] theorem State.applyReset_color (s : State) :
    (s.applyReset).color = 0 := rfl

@[simp] theorem State.applyReset_packed (s : State) :
    (s.applyReset).packed = 0 := rfl

@[simp] theorem State.applyReset_status (s : State) :
    (s.applyReset).status = .none := rfl

@[simp] theorem State.applyReset_dstLen (s : State) :
    (s.applyReset).dstLen = 0 := rfl

@[simp] theorem State.applyReset_outWidth (s : State) :
    (s.applyReset).outWidth = 0 := rfl

@[simp] theorem State.applyReset_outHeight (s : State) :
    (s.applyReset).outHeight = 0 := rfl

@[simp] theorem State.applyReset_src (s : State) :
    (s.applyReset).src = s.src := rfl

@[simp] theorem State.applyReset_dst (s : State) :
    (s.applyReset).dst = s.dst := rfl

@[simp] theorem State.applyReset_raster (s : State) :
    (s.applyReset).raster = none := rfl

@[simp] theorem State.applyReset_host (s : State) :
    (s.applyReset).host = s.host := rfl

@[simp] theorem State.applyReset_reply (s : State) :
    (s.applyReset).reply = s.reply := rfl

/-! ## Standing at a pixel -/

@[simp] theorem State.atPixel_addrW (s : State) (r : Raster) :
    (s.atPixel r).addrW = s.addrW := by
  unfold State.atPixel; split <;> rfl

@[simp] theorem State.atPixel_maxPixels (s : State) (r : Raster) :
    (s.atPixel r).maxPixels = s.maxPixels := by
  unfold State.atPixel; split <;> rfl

@[simp] theorem State.atPixel_fmt (s : State) (r : Raster) :
    (s.atPixel r).fmt = s.fmt := by
  unfold State.atPixel; split <;> rfl

@[simp] theorem State.atPixel_width (s : State) (r : Raster) :
    (s.atPixel r).width = s.width := by
  unfold State.atPixel; split <;> rfl

@[simp] theorem State.atPixel_height (s : State) (r : Raster) :
    (s.atPixel r).height = s.height := by
  unfold State.atPixel; split <;> rfl

@[simp] theorem State.atPixel_offset (s : State) (r : Raster) :
    (s.atPixel r).offset = s.offset := by
  unfold State.atPixel; split <;> rfl

@[simp] theorem State.atPixel_srcLen (s : State) (r : Raster) :
    (s.atPixel r).srcLen = s.srcLen := by
  unfold State.atPixel; split <;> rfl

@[simp] theorem State.atPixel_color (s : State) (r : Raster) :
    (s.atPixel r).color = s.color := by
  unfold State.atPixel; split <;> rfl

@[simp] theorem State.atPixel_packed (s : State) (r : Raster) :
    (s.atPixel r).packed = s.packed := by
  unfold State.atPixel; split <;> rfl

@[simp] theorem State.atPixel_src (s : State) (r : Raster) :
    (s.atPixel r).src = s.src := by
  unfold State.atPixel; split <;> rfl

@[simp] theorem State.atPixel_dst (s : State) (r : Raster) :
    (s.atPixel r).dst = s.dst := by
  unfold State.atPixel; split <;> rfl

@[simp] theorem State.atPixel_host (s : State) (r : Raster) :
    (s.atPixel r).host = s.host := by
  unfold State.atPixel; split <;> rfl

@[simp] theorem State.atPixel_reply (s : State) (r : Raster) :
    (s.atPixel r).reply = s.reply := by
  unfold State.atPixel; split <;> rfl

theorem State.atPixel_of_lt (s : State) {r : Raster} (h : r.pix < r.npix) :
    s.atPixel r = { s with raster := some r } := if_pos h

theorem State.atPixel_of_ge (s : State) {r : Raster} (h : r.npix ≤ r.pix) :
    s.atPixel r = s.finishImage r := if_neg (Nat.not_lt.mpr h)

/-! ## A host write to a register -/

@[simp] theorem State.writeReg_addrW (s : State) (r : Reg) (v : Nat) :
    (s.writeReg r v).addrW = s.addrW := by
  cases r <;> rfl

@[simp] theorem State.writeReg_maxPixels (s : State) (r : Reg) (v : Nat) :
    (s.writeReg r v).maxPixels = s.maxPixels := by
  cases r <;> rfl

@[simp] theorem State.writeReg_status (s : State) (r : Reg) (v : Nat) :
    (s.writeReg r v).status = s.status := by
  cases r <;> rfl

@[simp] theorem State.writeReg_dstLen (s : State) (r : Reg) (v : Nat) :
    (s.writeReg r v).dstLen = s.dstLen := by
  cases r <;> rfl

@[simp] theorem State.writeReg_outWidth (s : State) (r : Reg) (v : Nat) :
    (s.writeReg r v).outWidth = s.outWidth := by
  cases r <;> rfl

@[simp] theorem State.writeReg_outHeight (s : State) (r : Reg) (v : Nat) :
    (s.writeReg r v).outHeight = s.outHeight := by
  cases r <;> rfl

@[simp] theorem State.writeReg_src (s : State) (r : Reg) (v : Nat) :
    (s.writeReg r v).src = s.src := by
  cases r <;> rfl

@[simp] theorem State.writeReg_dst (s : State) (r : Reg) (v : Nat) :
    (s.writeReg r v).dst = s.dst := by
  cases r <;> rfl

@[simp] theorem State.writeReg_raster (s : State) (r : Reg) (v : Nat) :
    (s.writeReg r v).raster = s.raster := by
  cases r <;> rfl

@[simp] theorem State.writeReg_host (s : State) (r : Reg) (v : Nat) :
    (s.writeReg r v).host = s.host := by
  cases r <;> rfl

@[simp] theorem State.writeReg_reply (s : State) (r : Reg) (v : Nat) :
    (s.writeReg r v).reply = s.reply := by
  cases r <;> rfl

end Sys2Proof.Machine
end

