-- ==== Sys2Proof/Laws/Memory.lean ====
section
/-! SUPPORT. What reading and writing a memory does, and that every memory operation keeps the canonical form. -/

namespace Sys2Proof

/-- The four bytes of a colour's word are its channels (R27, R52). -/
@[simp] theorem Color.word_bytes (c : Color) :
    c.word.extractLsb' 24 8 = c.r ∧ c.word.extractLsb' 16 8 = c.g ∧
      c.word.extractLsb' 8 8 = c.b ∧ c.word.extractLsb' 0 8 = c.a := by
  refine ⟨?_, ?_, ?_, ?_⟩ <;>
    (ext i hi; simp only [Color.word, BitVec.getElem_extractLsb', BitVec.getLsbD_append]; interval_cases i <;> rfl)

@[simp] theorem Color.ofWord_word (c : Color) : Color.ofWord c.word = c := by
  obtain ⟨h₁, h₂, h₃, h₄⟩ := Color.word_bytes c
  simp only [Color.ofWord, h₁, h₂, h₃, h₄]

@[simp] theorem Color.word_ofWord (v : Word) : (Color.ofWord v).word = v := by
  refine BitVec.eq_of_getLsbD_eq fun i hi => ?_
  simp only [Color.word, Color.ofWord, BitVec.getLsbD_append, BitVec.getLsbD_extractLsb']
  interval_cases i <;> rfl

end Sys2Proof

namespace Sys2Proof.Machine

/-! ## Reading after writing -/

@[simp] theorem Memory.read_nil (k : Nat) : Memory.read [] k = none := rfl

theorem Memory.read_write (m : Memory) (k j : Nat) (v : Byte) :
    (m.write k v).read j = if j = k then some v else m.read j := by
  induction m with
  | nil => simp [Memory.write, Memory.read]
  | cons c m ih =>
    simp only [Memory.write]
    split
    · rfl
    · split
      · next h => subst h; by_cases hj : j = c.1 <;> simp [Memory.read, hj]
      · next h₁ h₂ =>
        simp only [Memory.read, ih]
        by_cases hj : j = c.1
        · simp [hj, Ne.symm h₂]
        · simp [hj]

@[simp] theorem Memory.read_write_same (m : Memory) (k : Nat) (v : Byte) : (m.write k v).read k = some v := by
  simp [Memory.read_write]

theorem Memory.read_write_other (m : Memory) {k j : Nat} (v : Byte) (h : j ≠ k) :
    (m.write k v).read j = m.read j := by
  simp [Memory.read_write, h]

theorem Memory.read_writeBytes (m : Memory) (k j : Nat) (vs : List Byte) :
    (m.writeBytes k vs).read j = if k ≤ j ∧ j < k + vs.length then vs[j - k]? else m.read j := by
  induction vs generalizing m k with
  | nil => simp [Memory.writeBytes]
  | cons v vs ih =>
    simp only [Memory.writeBytes, ih, Memory.read_write, List.length_cons]
    by_cases h : j = k
    · subst h; simp
    · by_cases h₁ : k + 1 ≤ j ∧ j < k + 1 + vs.length
      · have h₂ : k ≤ j ∧ j < k + (vs.length + 1) := by omega
        have h₃ : j - k = (j - (k + 1)) + 1 := by omega
        rw [if_pos h₁, if_pos h₂, h₃, List.getElem?_cons_succ]
      · have h₂ : ¬(k ≤ j ∧ j < k + (vs.length + 1)) := by omega
        rw [if_neg h₁, if_neg h₂, if_neg h]

theorem Memory.read_ofBytes (bytes : List Byte) (j : Nat) : (Memory.ofBytes bytes).read j = bytes[j]? := by
  simp only [Memory.ofBytes, Memory.read_writeBytes, Memory.read_nil]
  split
  · simp
  · next h => symm; apply List.getElem?_eq_none; omega

/-- A word stored at `a` is its four bytes, most significant first, and nothing else (R58). -/
theorem Memory.read_writeWord (m : Memory) (a j : Nat) (v : Word) :
    (m.writeWord a v).read j =
      if j = a then some (v.extractLsb' 24 8)
      else if j = a + 1 then some (v.extractLsb' 16 8)
      else if j = a + 2 then some (v.extractLsb' 8 8)
      else if j = a + 3 then some (v.extractLsb' 0 8)
      else m.read j := by
  simp only [Memory.writeWord, Memory.writeBytes, Memory.read_write]
  split_ifs <;> first | rfl | omega

theorem Memory.read_writeWord_other (m : Memory) {a j : Nat} (v : Word) (h : j < a ∨ a + 4 ≤ j) :
    (m.writeWord a v).read j = m.read j := by
  rw [Memory.read_writeWord, if_neg, if_neg, if_neg, if_neg] <;> omega

/-- The four bytes of a stored colour are its channels, R first (R52, R58). -/
theorem Memory.read_writeColor (m : Memory) (a j : Nat) (c : Color) :
    (m.writeWord a c.word).read j =
      if j = a then some c.r
      else if j = a + 1 then some c.g
      else if j = a + 2 then some c.b
      else if j = a + 3 then some c.a
      else m.read j := by
  obtain ⟨h₁, h₂, h₃, h₄⟩ := Color.word_bytes c
  simp only [Memory.read_writeWord, h₁, h₂, h₃, h₄]

/-! ## The canonical form -/

theorem Memory.mem_write {m : Memory} {k : Nat} {v : Byte} {c : Host.Cell} (h : c ∈ m.write k v) :
    c = (k, v) ∨ c ∈ m := by
  induction m with
  | nil => simpa [Memory.write] using h
  | cons d m ih =>
    simp only [Memory.write] at h
    split at h
    · simpa using h
    · split at h
      · rcases List.mem_cons.mp h with h | h
        · exact .inl h
        · exact .inr (List.mem_cons_of_mem _ h)
      · rcases List.mem_cons.mp h with h | h
        · exact .inr (h ▸ List.mem_cons_self)
        · exact (ih h).imp_right (List.mem_cons_of_mem _)

/-- Writing a byte keeps the canonical form. -/
theorem Memory.wf_write {m : Memory} (h : m.wf) (k : Nat) (v : Byte) : (m.write k v).wf := by
  induction m with
  | nil => simp [Memory.write, Memory.wf]
  | cons c m ih =>
    obtain ⟨h₁, h₂⟩ := List.pairwise_cons.mp h
    simp only [Memory.write]
    split
    · next hk =>
      refine List.pairwise_cons.mpr ⟨fun d hd => ?_, h⟩
      rcases List.mem_cons.mp hd with rfl | hd
      · exact hk
      · exact Nat.lt_trans hk (h₁ d hd)
    · split
      · next hk =>
        subst hk
        exact List.pairwise_cons.mpr ⟨h₁, h₂⟩
      · next hk₁ hk₂ =>
        refine List.pairwise_cons.mpr ⟨fun d hd => ?_, ih h₂⟩
        rcases Memory.mem_write hd with rfl | hd
        · simp only; omega
        · exact h₁ d hd

/-- Writing bytes keeps the canonical form. -/
theorem Memory.wf_writeBytes {m : Memory} (h : m.wf) (k : Nat) (vs : List Byte) : (m.writeBytes k vs).wf := by
  induction vs generalizing m k with
  | nil => exact h
  | cons v vs ih => exact ih (Memory.wf_write h k v) (k + 1)

/-- Writing a word keeps the canonical form. -/
theorem Memory.wf_writeWord {m : Memory} (h : m.wf) (a : Nat) (v : Word) : (m.writeWord a v).wf :=
  Memory.wf_writeBytes h a _

/-- A memory loaded with bytes is in canonical form. -/
theorem Memory.wf_ofBytes (bytes : List Byte) : (Memory.ofBytes bytes).wf :=
  Memory.wf_writeBytes List.Pairwise.nil 0 bytes

/-! ## The addresses of a memory -/

/-- Every byte a write leaves has an index below `n`, if every byte before had and the written one has. -/
theorem Memory.bound_write {m : Memory} {n k : Nat} {v : Byte} (h : ∀ c ∈ m, c.1 < n) (hk : k < n) :
    ∀ c ∈ m.write k v, c.1 < n := by
  intro c hc
  rcases Memory.mem_write hc with rfl | hc
  · exact hk
  · exact h c hc

theorem Memory.bound_writeBytes {m : Memory} {n k : Nat} {vs : List Byte} (h : ∀ c ∈ m, c.1 < n)
    (hk : k + vs.length ≤ n) : ∀ c ∈ m.writeBytes k vs, c.1 < n := by
  induction vs generalizing m k with
  | nil => exact h
  | cons v vs ih =>
    simp only [List.length_cons] at hk
    exact ih (Memory.bound_write h (by omega)) (by omega)

theorem Memory.bound_writeWord {m : Memory} {n a : Nat} {v : Word} (h : ∀ c ∈ m, c.1 < n) (ha : a + 4 ≤ n) :
    ∀ c ∈ m.writeWord a v, c.1 < n :=
  Memory.bound_writeBytes h (by simpa using ha)

theorem Memory.bound_ofBytes {bytes : List Byte} {n : Nat} (h : bytes.length ≤ n) :
    ∀ c ∈ Memory.ofBytes bytes, c.1 < n :=
  Memory.bound_writeBytes (by simp) (by omega)

/-! ## The memories of the state after reset -/

theorem State.reset_src_wf : State.reset.src.wf := List.Pairwise.nil

theorem State.reset_dst_wf : State.reset.dst.wf := List.Pairwise.nil

end Sys2Proof.Machine
end

