-- ==== Sys2Proof/Laws/Source.lean ====
section
/-! SUPPORT. Where a pixel comes from: the slice, the classes of R55, and when and by what a pixel's colour is
determined. -/

namespace Sys2Proof

/-! ## Formats -/

theorem Format.bits_pos (f : Format) : 0 < f.bits := by cases f <;> decide

/-- A pixel is a part of one byte or a whole number of bytes (R82). -/
theorem Format.bits_cases (f : Format) : f.bits = 1 ∨ f.bits = 4 ∨ f.bits = 8 ∨ f.bits = 16 ∨ f.bits = 32 := by
  cases f <;> decide

theorem Format.bytes_pos (f : Format) : 0 < f.bytes := by cases f <;> decide

/-! ## The classes of R55 -/

theorem Format.presence_missing_iff (f : Format) (avail i : Nat) :
    f.presence avail i = .whollyMissing ↔ avail ≤ f.firstByte i := by
  have := f.bytes_pos
  unfold Format.presence
  split
  · simp; omega
  · split <;> simp_all

/-- Within a byte of the slice, every byte a pixel needs lies below its end (R57). -/
theorem Format.firstByte_add_bytes_le_need (f : Format) {i n : Nat} (h : i < n) :
    f.firstByte i + f.bytes ≤ f.need n := by
  obtain h' | h' | h' | h' | h' := f.bits_cases <;>
    simp only [Format.firstByte, Format.bytes, Format.need, h'] <;> omega

end Sys2Proof

namespace Sys2Proof.Machine

/-! ## The slice -/

theorem Slice.byte_of_lt (sl : Slice) {k : Nat} (h : k < sl.avail) : sl.byte k = sl.src.read (sl.base + k) :=
  if_pos h

theorem Slice.byte_of_ge (sl : Slice) {k : Nat} (h : sl.avail ≤ k) : sl.byte k = some 0 :=
  if_neg (Nat.not_lt.mpr h)

theorem Slice.read_isSome {sl : Slice} {k n : Nat} (h : ∀ j < n, (sl.byte (k + j)).isSome) :
    (sl.read k n).isSome := by
  induction n with
  | zero => rfl
  | succ n ih =>
    obtain ⟨v, hv⟩ := Option.isSome_iff_exists.mp (ih fun j hj => h j (by omega))
    obtain ⟨b, hb⟩ := Option.isSome_iff_exists.mp (h n (by omega))
    simp [Slice.read, hv, hb]

theorem Slice.byte_of_read_isSome {sl : Slice} {k n j : Nat} (h : (sl.read k n).isSome) (hj : j < n) :
    (sl.byte (k + j)).isSome := by
  induction n with
  | zero => omega
  | succ n ih =>
    simp only [Slice.read] at h
    cases hv : sl.read k n with
    | none => simp [hv] at h
    | some v =>
      cases hb : sl.byte (k + n) with
      | none => simp [hv, hb] at h
      | some b =>
        rcases Nat.lt_or_ge j n with hj' | hj'
        · exact ih (by simp [hv]) hj'
        · obtain rfl : j = n := by omega
          simp [hb]

theorem Slice.read_missing {sl : Slice} {k n : Nat} (h : sl.avail ≤ k) : sl.read k n = some 0 := by
  induction n with
  | zero => rfl
  | succ n ih => simp [Slice.read, ih, sl.byte_of_ge (show sl.avail ≤ k + n by omega)]

theorem Slice.read_congr {sl sl' : Slice} {k k' n : Nat} (h : ∀ j < n, sl.byte (k + j) = sl'.byte (k' + j)) :
    sl.read k n = sl'.read k' n := by
  induction n with
  | zero => rfl
  | succ n ih => simp only [Slice.read, ih fun j hj => h j (by omega), h n (by omega)]

/-- The fetch of a pixel has a value exactly when each byte of it has (R57). -/
theorem Slice.fetch_isSome_iff (sl : Slice) (f : Format) (i : Nat) :
    (sl.fetch f i).isSome ↔ ∀ j < f.bytes, (sl.byte (f.firstByte i + j)).isSome := by
  unfold Slice.fetch
  split
  · next h =>
    have hb : f.bytes = 1 := by revert h; cases f <;> decide
    simp [hb]
  · next h =>
    have hb : f.bits / 8 = f.bytes := by revert h; cases f <;> decide
    rw [hb]
    exact ⟨fun h j hj => Slice.byte_of_read_isSome h hj, Slice.read_isSome⟩

/-- A wholly missing pixel is fetched as 0 (R54, R57). -/
theorem Slice.fetch_missing {sl : Slice} {f : Format} {i : Nat} (h : sl.avail ≤ f.firstByte i) :
    sl.fetch f i = some 0 := by
  unfold Slice.fetch
  split
  · simp [sl.byte_of_ge h]
  · exact Slice.read_missing h

/-- The fetch of a pixel depends on its own bytes alone (R57). -/
theorem Slice.fetch_congr {sl sl' : Slice} {f : Format} {i : Nat}
    (h : ∀ j < f.bytes, sl.byte (f.firstByte i + j) = sl'.byte (f.firstByte i + j)) :
    sl.fetch f i = sl'.fetch f i := by
  unfold Slice.fetch
  split
  · have := h 0 f.bytes_pos
    simp only [Nat.add_zero] at this
    rw [this]
  · next hb =>
    have : f.bits / 8 = f.bytes := by revert hb; cases f <;> decide
    exact Slice.read_congr fun j hj => h j (by omega)

/-! ## The colour of a pixel -/

/-- Every raw value of a format that has colours has one (R85). -/
theorem unpackRaw_isSome {f : Format} (h : f.isPalette = false) (raw : Word) : (unpackRaw f raw).isSome := by
  cases f <;> first | rfl | cases h

/-- The colour of a wholly missing pixel (R194). -/
theorem pixelColor_missing {sl : Slice} {f : Format} {i : Nat} (h : sl.avail ≤ f.firstByte i) :
    pixelColor Config.shortFill sl f i = some ⟨0, 0, 0, 0⟩ := by
  simp [pixelColor, (f.presence_missing_iff sl.avail i).mpr h, Config.shortFill]

/-- The colour of a pixel some of whose bytes exist (R194). -/
theorem pixelColor_present {sl : Slice} {f : Format} {i : Nat} (fill : ShortFill) (h : f.firstByte i < sl.avail) :
    pixelColor fill sl f i = (sl.fetch f i).bind (unpackRaw f) := by
  unfold pixelColor
  split
  · next hp => exact absurd ((f.presence_missing_iff _ _).mp hp) (by omega)
  · rfl
  · rfl

/-- A pixel of a format that has colours has a colour exactly when its fetch has a value (R194). -/
theorem pixelColor_isSome_iff {sl : Slice} {f : Format} {i : Nat} (hf : f.isPalette = false) :
    (pixelColor Config.shortFill sl f i).isSome ↔ (sl.fetch f i).isSome := by
  rcases Nat.lt_or_ge (f.firstByte i) sl.avail with h | h
  · rw [pixelColor_present _ h]
    cases sl.fetch f i with
    | none => simp
    | some raw => simpa using unpackRaw_isSome hf raw
  · simp [pixelColor_missing h, Slice.fetch_missing h]

/-- With every needed byte supplied, every pixel of the tile has a colour (R60, R194). -/
theorem pixelColor_of_supplied {sl : Slice} {f : Format} {n i : Nat} (hf : f.isPalette = false)
    (hs : sl.supplied f n) (hi : i < n) : (pixelColor Config.shortFill sl f i).isSome := by
  rw [pixelColor_isSome_iff hf, Slice.fetch_isSome_iff]
  intro j hj
  have := f.firstByte_add_bytes_le_need hi
  rcases Nat.lt_or_ge (f.firstByte i + j) sl.avail with h | h
  · rw [sl.byte_of_lt h]
    exact hs _ h (by omega)
  · simp [sl.byte_of_ge h]

/-- A needed byte that was not supplied leaves some pixel of the tile without a colour (R60, R263). -/
theorem pixelColor_of_not_supplied {sl : Slice} {f : Format} {n : Nat} (hf : f.isPalette = false)
    (hs : ¬ sl.supplied f n) : ∃ i < n, pixelColor Config.shortFill sl f i = none := by
  simp only [Slice.supplied, not_forall] at hs
  obtain ⟨k, hk, hn, hr⟩ := hs
  have key : ∃ i < n, ∃ j < f.bytes, f.firstByte i + j = k := by
    obtain h' | h' | h' | h' | h' := f.bits_cases <;>
      simp only [Format.firstByte, Format.bytes, Format.need, h'] at hn ⊢
    · exact ⟨8 * k, by omega, 0, by omega, by omega⟩
    · exact ⟨2 * k, by omega, 0, by omega, by omega⟩
    · exact ⟨k, by omega, 0, by omega, by omega⟩
    · exact ⟨k / 2, by omega, k % 2, by omega, by omega⟩
    · exact ⟨k / 4, by omega, k % 4, by omega, by omega⟩
  obtain ⟨i, hi, j, hj, hij⟩ := key
  refine ⟨i, hi, ?_⟩
  rw [← Option.not_isSome_iff_eq_none, pixelColor_isSome_iff hf, Slice.fetch_isSome_iff]
  intro h
  have := h j hj
  rw [hij, sl.byte_of_lt hk] at this
  exact hr this

/-- A pixel of the tile depends on the needed bytes of the slice alone (R60, R197). -/
theorem pixelColor_congr {src src' : Memory} {base avail n i : Nat} {f : Format}
    (h : ∀ k, k < avail → k < f.need n → src'.read (base + k) = src.read (base + k)) (hi : i < n)
    (fill : ShortFill) : pixelColor fill ⟨src', base, avail⟩ f i = pixelColor fill ⟨src, base, avail⟩ f i := by
  have key : Slice.fetch ⟨src', base, avail⟩ f i = Slice.fetch ⟨src, base, avail⟩ f i := by
    refine Slice.fetch_congr fun j hj => ?_
    have := f.firstByte_add_bytes_le_need hi
    simp only [Slice.byte]
    split
    · next hk => exact h _ hk (by omega)
    · rfl
  simp only [pixelColor, key]

end Sys2Proof.Machine
end

