-- ==== Sys2Proof/Laws/Raster.lean ====
section
/-! SUPPORT. What one pixel does, what the raster loop does, and what a decode command answers: each said once. -/

namespace Sys2Proof.Machine

/-! ## One pixel -/

@[simp] theorem Raster.next_fmt (r : Raster) : r.next.fmt = r.fmt := by unfold Raster.next; split <;> rfl
@[simp] theorem Raster.next_w (r : Raster) : r.next.w = r.w := by unfold Raster.next; split <;> rfl
@[simp] theorem Raster.next_h (r : Raster) : r.next.h = r.h := by unfold Raster.next; split <;> rfl
@[simp] theorem Raster.next_base (r : Raster) : r.next.base = r.base := by unfold Raster.next; split <;> rfl
@[simp] theorem Raster.next_avail (r : Raster) : r.next.avail = r.avail := by unfold Raster.next; split <;> rfl
@[simp] theorem Raster.next_pix (r : Raster) : r.next.pix = r.pix + 1 := by unfold Raster.next; split <;> rfl
@[simp] theorem Raster.next_npix (r : Raster) : r.next.npix = r.npix := by simp [Raster.npix]
@[simp] theorem Raster.next_slice (r : Raster) (src : Memory) : r.next.slice src = r.slice src := by
  simp [Raster.slice]

/-- Colour `c` at pixel PIX, and the raster moved on: the state every pixel leads to (R196). -/
def State.pixelAt (s : State) (r : Raster) (c : Color) : State :=
  State.atPixel { s with dst := s.dst.writeWord (4 * r.pix) c.word } r.next

@[simp] theorem State.pixelAt_src (s : State) (r : Raster) (c : Color) : (s.pixelAt r c).src = s.src := by
  simp [State.pixelAt]

@[simp] theorem State.pixelAt_dst (s : State) (r : Raster) (c : Color) :
    (s.pixelAt r c).dst = s.dst.writeWord (4 * r.pix) c.word := by
  simp [State.pixelAt]

/-- A tile has fewer than 2^64 pixels, so DST_LEN holds its length exactly (R25, R30). -/
theorem tilePixels_lt (w h : Word) : tilePixels w h < 2 ^ 64 := by
  have h₁ := w.isLt
  have h₂ := h.isLt
  calc tilePixels w h < 2 ^ 32 * 2 ^ 32 := Nat.mul_lt_mul'' h₁ h₂
    _ = 2 ^ 64 := by norm_num

/-- DST_LEN is exactly four times the pixels of a tile (R35). -/
theorem dstLen_toNat (w h : Word) :
    (BitVec.ofNat Config.dstW (4 * tilePixels w h)).toNat = 4 * tilePixels w h := by
  rw [BitVec.toNat_ofNat]
  have := tilePixels_lt w h
  exact Nat.mod_eq_of_lt (by norm_num at this ⊢; omega)

/-- Everything storing a pixel does (R58, R196). -/
theorem State.pixelAt_done (s : State) (r : Raster) (c : Color) : PixelDone r c s (s.pixelAt r c) where
  keeps := by constructor <;> simp [State.pixelAt]
  stored := by
    simp only [State.pixelAt, State.atPixel_dst, holdsPixel, Memory.read_writeColor]
    refine ⟨by simp, ?_, ?_, ?_⟩ <;> (repeat rw [if_neg (by omega)]) <;> simp
  elsewhere k hk := by
    simp only [State.pixelAt, State.atPixel_dst]
    exact Memory.read_writeWord_other _ _ (by omega)
  goesOn h := by
    have h' : r.next.pix < r.next.npix := by simpa [Raster.npix, tilePixels] using h
    simp only [State.pixelAt, State.atPixel_of_lt _ h', and_true, Option.some.injEq]
    unfold Raster.next
    split <;> simp_all
  ends h := by
    have h' : r.next.npix ≤ r.next.pix := by simpa [Raster.npix, tilePixels] using h
    have := dstLen_toNat r.w r.h
    simp only [State.pixelAt, State.atPixel_of_ge _ h', State.finishImage_raster, State.finishImage_status,
      State.finishImage_dstLen, State.finishImage_outWidth, State.finishImage_outHeight, Raster.next_npix,
      Raster.next_w, Raster.next_h, and_self, and_true, true_and]
    exact this

/-- Inside a decode command a pixel of a format is stored as the colour R194 gives it. -/
theorem storePixel_eq {s : State} {r : Raster} (h : s.raster = some r) (f : Format) (c zero : Color) :
    storePixel f c zero s =
      .next (s.pixelAt r (if f.firstByte r.pix < r.avail then c else ⟨0, 0, 0, 0⟩)) := by
  have key : fillColor Config.shortFill (f.presence r.avail r.pix) c zero =
      if f.firstByte r.pix < r.avail then c else ⟨0, 0, 0, 0⟩ := by
    split
    · next hk =>
      cases hp : f.presence r.avail r.pix with
      | whollyMissing => exact absurd ((f.presence_missing_iff _ _).mp hp) (by omega)
      | present => rfl
      | partlyPresent => rfl
    · next hk =>
      rw [(f.presence_missing_iff _ _).mpr (by omega)]
      rfl
  simp only [storePixel, h, key]
  rfl

/-- The loop and the step run a pixel by the same meaning. -/
theorem execPixel_decodePixel (f : Format) (raw : Word) (s : State) :
    execPixel (decodePixel f raw) s = exec (decodePixel f raw) s := by
  cases f <;> rfl

/-- A raw pixel of a format that has colours, run inside a decode command. -/
theorem exec_decodePixel {s : State} {r : Raster} (h : s.raster = some r) {f : Format} {raw : Word} {c : Color}
    (hc : unpackRaw f raw = some c) :
    exec (decodePixel f raw) s =
      .next (s.pixelAt r (if f.firstByte r.pix < r.avail then c else ⟨0, 0, 0, 0⟩)) := by
  cases f <;>
    first
    | (obtain rfl := Option.some.inj hc; exact storePixel_eq h _ _ _)
    | cases hc

/-- One step of the raster loop: the pixel's colour stored, or the refusal of a byte that was not supplied. -/
theorem rasterStep_eq {s : State} {r : Raster} (h : s.raster = some r) (hf : r.fmt.isPalette = false) :
    rasterStep s =
      match pixelColor Config.shortFill (r.slice s.src) r.fmt r.pix with
      | some c => .next (s.pixelAt r c)
      | none => .refused (.srcNotSupplied r.pix) := by
  simp only [rasterStep, h]
  cases hraw : (r.slice s.src).fetch r.fmt r.pix with
  | none =>
    have : pixelColor Config.shortFill (r.slice s.src) r.fmt r.pix = none := by
      rw [← Option.not_isSome_iff_eq_none, pixelColor_isSome_iff hf, hraw]
      simp
    simp [this]
  | some raw =>
    obtain ⟨c, hc⟩ := Option.isSome_iff_exists.mp (unpackRaw_isSome hf raw)
    simp only [execPixel_decodePixel, exec_decodePixel h hc]
    rcases Nat.lt_or_ge (r.fmt.firstByte r.pix) r.avail with hk | hk
    · rw [pixelColor_present (sl := r.slice s.src) _ hk, hraw]
      simp [hc, hk]
    · rw [pixelColor_missing (sl := r.slice s.src) hk]
      simp [Nat.not_lt.mpr hk]

/-- The machine's step inside a decode command is the loop's. -/
theorem step_eq_rasterStep {s : State} {r : Raster} (h : s.raster = some r) : step s = rasterStep s := by
  simp only [step, h, pixelStep, fetchPixel, rasterStep]
  cases (r.slice s.src).fetch r.fmt r.pix with
  | none => rfl
  | some raw => simp [execPixel_decodePixel]

/-! ## The loop -/

/-- The DST of a tile: `n` pixels stored from pixel `i` on, or the first pixel that has no colour. -/
def paint (sl : Slice) (f : Format) : Nat → Nat → Memory → Except Nat Memory
  | 0, _, m => .ok m
  | n + 1, i, m =>
    match pixelColor Config.shortFill sl f i with
    | none => .error i
    | some c => paint sl f n (i + 1) (m.writeWord (4 * i) c.word)

/-- The raster loop, run to the end of its tile, stores the image and ends the command (R193, R196). -/
theorem rasterLoop_eq_paint {n : Nat} {s : State} {r : Raster} (h : s.raster = some r)
    (hf : r.fmt.isPalette = false) (hn : r.pix + (n + 1) = r.npix) :
    rasterLoop (n + 1) s =
      match paint (r.slice s.src) r.fmt (n + 1) r.pix s.dst with
      | .ok m => .next (State.finishImage { s with dst := m } r)
      | .error p => .refused (.srcNotSupplied p) := by
  induction n generalizing s r with
  | zero =>
    simp only [rasterLoop, rasterStep_eq h hf, paint]
    cases pixelColor Config.shortFill (r.slice s.src) r.fmt r.pix with
    | none => rfl
    | some c =>
      have : r.next.npix ≤ r.next.pix := by simp; omega
      simp [State.pixelAt, State.atPixel_of_ge _ this, State.finishImage]
  | succ n ih =>
    rw [rasterLoop, rasterStep_eq h hf, paint]
    cases pixelColor Config.shortFill (r.slice s.src) r.fmt r.pix with
    | none => rfl
    | some c =>
      have hlt : r.next.pix < r.next.npix := by simp; omega
      have := ih (s := s.pixelAt r c) (r := r.next) (by simp [State.pixelAt, State.atPixel_of_lt _ hlt])
        (by simpa using hf) (by simp; omega)
      simp only [State.pixelAt_src, State.pixelAt_dst, Raster.next_slice, Raster.next_fmt, Raster.next_pix] at this
      simp only [this]
      cases paint (r.slice s.src) r.fmt (n + 1) (r.pix + 1) (s.dst.writeWord (4 * r.pix) c.word) with
      | error p => rfl
      | ok m => simp [State.pixelAt, State.finishImage, State.endCommand, State.atPixel_of_lt _ hlt]

/-- A tile is over the platform's capacity exactly when the platform sets one and the tile has more pixels (R266). -/
theorem overCapacity_eq_false_iff (max : Option Nat) (n : Nat) :
    overCapacity max n = false ↔ ∀ m, max = some m → n ≤ m := by
  cases max <;> simp [overCapacity]

/-- Everything a decode of a format that has colours can answer within the capacity of DST: the image, or the refusal of a byte that was not
supplied (R193). -/
theorem decodeCommon_eq_paint {max : Option Nat} {base avail : Nat} {s : State} {f : Format}
    (ht : Format.ofTag s.fmt = some f) (hf : f.isPalette = false)
    (hc : overCapacity max (tilePixels s.width s.height) = false) :
    decodeCommon max base avail s =
      match paint ⟨s.src, base, avail⟩ f (tilePixels s.width s.height) 0 s.dst with
      | .ok m => .next (State.endCommand { s with dst := m } .image (4 * tilePixels s.width s.height) s.width s.height)
      | .error p => .refused (.srcNotSupplied p) := by
  simp only [decodeCommon, ht, hf, hc, startRaster]
  cases hn : tilePixels s.width s.height with
  | zero =>
    rw [State.atPixel_of_ge _ (by simp [Raster.npix, hn])]
    simp [rasterLoop, paint, State.finishImage, Raster.npix, hn]
  | succ n =>
    rw [State.atPixel_of_lt _ (by simp [Raster.npix, hn])]
    have := rasterLoop_eq_paint (n := n)
      (s := { s with raster := some ⟨f, s.width, s.height, base, avail, 0, 0, 0⟩ }) rfl hf
      (by simp [Raster.npix, hn])
    simp only [Raster.slice] at this
    simp only [this, Bool.false_eq_true, if_false]
    cases paint ⟨s.src, base, avail⟩ f (n + 1) 0 s.dst with
    | error p => rfl
    | ok m => simp [State.finishImage, State.endCommand, Raster.npix, hn]

/-! ## The image -/

/-- What a painted DST holds: the tile's pixels, and elsewhere what was there. -/
theorem paint_ok {sl : Slice} {f : Format} {n i : Nat} {m m' : Memory} (h : paint sl f n i m = .ok m') :
    (∀ j, i ≤ j → j < i + n → ∃ c, pixelColor Config.shortFill sl f j = some c ∧ holdsPixel m' j c) ∧
      ∀ k, k < 4 * i ∨ 4 * (i + n) ≤ k → m'.read k = m.read k := by
  induction n generalizing i m with
  | zero =>
    obtain rfl : m = m' := Except.ok.inj h
    exact ⟨fun j _ _ => by omega, fun _ _ => rfl⟩
  | succ n ih =>
    simp only [paint] at h
    split at h
    · cases h
    · next c hc =>
      obtain ⟨h₁, h₂⟩ := ih h
      refine ⟨fun j hj₁ hj₂ => ?_, fun k hk => ?_⟩
      · rcases Nat.eq_or_lt_of_le hj₁ with rfl | hj
        · refine ⟨c, hc, ?_⟩
          simp only [holdsPixel]
          rw [h₂ _ (by omega), h₂ _ (by omega), h₂ _ (by omega), h₂ _ (by omega)]
          simp only [Memory.read_writeColor]
          refine ⟨by simp, ?_, ?_, ?_⟩ <;> (repeat rw [if_neg (by omega)]) <;> simp
        · exact h₁ j hj (by omega)
      · rw [h₂ k (by omega)]
        exact Memory.read_writeWord_other _ _ (by omega)

/-- A painting fails at a pixel of the tile that has no colour. -/
theorem paint_error {sl : Slice} {f : Format} {n i p : Nat} {m : Memory} (h : paint sl f n i m = .error p) :
    i ≤ p ∧ p < i + n ∧ pixelColor Config.shortFill sl f p = none := by
  induction n generalizing i m with
  | zero => cases h
  | succ n ih =>
    simp only [paint] at h
    split at h
    · next hc =>
      obtain rfl := Except.error.inj h
      exact ⟨Nat.le_refl _, by omega, hc⟩
    · obtain ⟨h₁, h₂, h₃⟩ := ih h
      exact ⟨by omega, by omega, h₃⟩

/-- Painting depends on the colours of the tile's pixels alone. -/
theorem paint_congr {sl sl' : Slice} {f : Format} {n i : Nat} {m : Memory}
    (h : ∀ j, i ≤ j → j < i + n → pixelColor Config.shortFill sl' f j = pixelColor Config.shortFill sl f j) :
    paint sl' f n i m = paint sl f n i m := by
  induction n generalizing i m with
  | zero => rfl
  | succ n ih =>
    simp only [paint, h i (Nat.le_refl _) (by omega)]
    split
    · rfl
    · exact ih fun j h₁ h₂ => h j (by omega) (by omega)

/-- A painting keeps the canonical form of DST and stays within its 66-bit indices. -/
theorem paint_wf {sl : Slice} {f : Format} {n i b : Nat} {m m' : Memory} (h : paint sl f n i m = .ok m')
    (hw : m.wf) (hb : ∀ c ∈ m, c.1 < b) (hn : 4 * (i + n) ≤ b) : m'.wf ∧ ∀ c ∈ m', c.1 < b := by
  induction n generalizing i m with
  | zero =>
    obtain rfl : m = m' := Except.ok.inj h
    exact ⟨hw, hb⟩
  | succ n ih =>
    simp only [paint] at h
    split at h
    · cases h
    · exact ih h (Memory.wf_writeWord hw _ _) (Memory.bound_writeWord hb (by omega)) (by omega)

end Sys2Proof.Machine
end

