-- ==== Sys2Proof/Laws/Host.lean ====
section
/-! SUPPORT. What a step does: a pixel inside a decode command, an access of the host between commands. -/

namespace Sys2Proof.Machine

/-! ## Steps -/

theorem step_pixel {s : State} {r : Raster} (h : s.raster = some r) : step s = pixelStep r s := by
  simp only [step, h]

theorem step_access {s : State} {op : HostOp} {rest : List HostOp} (hr : s.raster = none) (hh : s.host = op :: rest) :
    step s = hostAccess op { s with host := rest } := by
  simp only [step, hr, idleStep, hh]

theorem step_idle {s : State} (hr : s.raster = none) (hh : s.host = []) : step s = .next s := by
  simp only [step, hr, idleStep, hh]

/-! ## Host writes -/

theorem Reg.ofNumber_above {n : Nat} (h : 11 < n) : Reg.ofNumber n = none := by
  unfold Reg.ofNumber
  split <;> first | omega | rfl

theorem registerWrite_cmd {v : Nat} (n : Nat) (s : State) (h : v < 2 ^ 32) :
    registerWrite n .cmd v s = commandWrite (BitVec.ofNat 32 v) s := if_pos h

theorem registerWrite_data {r : Reg} {v : Nat} (n : Nat) (s : State) (hr : r ≠ .cmd) (h : v < 2 ^ r.bits s.addrW) :
    registerWrite n r v s = .next (s.writeReg r v) := by
  unfold registerWrite
  rw [if_pos h]
  cases r <;> first | rfl | exact absurd rfl hr

theorem registerWrite_wide {r : Reg} {v : Nat} (n : Nat) (s : State) (h : 2 ^ r.bits s.addrW ≤ v) :
    registerWrite n r v s = .refused (.hostValueTooWide n v) := if_neg (Nat.not_lt.mpr h)

theorem hostAccess_wr {n : Nat} {r : Reg} (h : Reg.ofNumber n = some r) (v : Nat) (s : State) :
    hostAccess (.wr n v) s = registerWrite n r v s := by
  simp only [hostAccess, h]

theorem hostAccess_wr_above {n : Nat} (h : 11 < n) (v : Nat) (s : State) : hostAccess (.wr n v) s = .next s := by
  simp only [hostAccess, Reg.ofNumber_above h]

/-- A write to CMD between commands (R34). -/
theorem step_command {s : State} {v : Nat} {rest : List HostOp} (hr : s.raster = none)
    (hh : s.host = .wr 7 v :: rest) (hv : v < 2 ^ 32) :
    step s = commandWrite (BitVec.ofNat 32 v) { s with host := rest } := by
  rw [step_access hr hh, hostAccess_wr rfl, registerWrite_cmd _ _ hv]

/-- A write to any other existing register between commands (R23). -/
theorem step_write {s : State} {n v : Nat} {r : Reg} {rest : List HostOp} (hr : s.raster = none)
    (hh : s.host = .wr n v :: rest) (hn : Reg.ofNumber n = some r) (hc : r ≠ .cmd) (hv : v < 2 ^ r.bits s.addrW) :
    step s = .next (State.writeReg { s with host := rest } r v) := by
  rw [step_access hr hh, hostAccess_wr hn]
  exact registerWrite_data n _ hc hv

/-! ## What a command answers -/

/-- Everything `DecodeCommon` can answer as a next state: one of the two format faults, or the painted image of a
format that has colours (R193). -/
theorem decodeCommon_cases {max : Option Nat} {base avail : Nat} {s t : State}
    (h : decodeCommon max base avail s = .next t) :
    (Format.ofTag s.fmt = none ∧ t = s.raise .unsupportedFormat) ∨
    (∃ f, Format.ofTag s.fmt = some f ∧ f.isPalette = true ∧ t = s.raise .unresolvedPaletteFormat) ∨
    (∃ f m, Format.ofTag s.fmt = some f ∧ f.isPalette = false ∧
      overCapacity max (tilePixels s.width s.height) = false ∧
      paint ⟨s.src, base, avail⟩ f (tilePixels s.width s.height) 0 s.dst = .ok m ∧
      t = State.endCommand { s with dst := m } .image (4 * tilePixels s.width s.height) s.width s.height) := by
  cases ht : Format.ofTag s.fmt with
  | none =>
    simp only [decodeCommon, ht] at h
    exact .inl ⟨rfl, (Host.Outcome.next.inj h).symm⟩
  | some f =>
    cases hf : f.isPalette with
    | true =>
      simp only [decodeCommon, ht, hf] at h
      exact .inr (.inl ⟨f, rfl, hf, (Host.Outcome.next.inj h).symm⟩)
    | false =>
      cases hc : overCapacity max (tilePixels s.width s.height) with
      | true => simp [decodeCommon, ht, hf, hc] at h
      | false =>
        rw [decodeCommon_eq_paint ht hf hc] at h
        cases hm : paint ⟨s.src, base, avail⟩ f (tilePixels s.width s.height) 0 s.dst with
        | error p => rw [hm] at h; cases h
        | ok m =>
          rw [hm] at h
          exact .inr (.inr ⟨f, m, rfl, hf, rfl, hm, (Host.Outcome.next.inj h).symm⟩)

/-- Everything DECODE_WINDOW can answer: nothing to draw, or a decode of the slice from OFFSET (R191). -/
theorem execDecodeWindow_cases (s : State) :
    (s.srcLen ≤ s.offset ∧ execDecodeWindow s = .next (s.endWithout .nothingToDraw)) ∨
    (s.offset < s.srcLen ∧
      execDecodeWindow s = decodeCommon s.maxPixels s.offset (s.srcLen - s.offset) s) := by
  unfold execDecodeWindow
  split
  · next h => exact .inl ⟨h, rfl⟩
  · next h => exact .inr ⟨by omega, rfl⟩

theorem execDecode_eq (s : State) : execDecode s = decodeCommon s.maxPixels 0 s.srcLen s := rfl

end Sys2Proof.Machine
end

