-- ==== Sys2Proof/Laws/PerInstr.lean ====
section
/-! SUPPORT. Statements made per instruction: the encoding of every instruction is well-formed bits. -/

namespace Sys2Proof.Laws.EncodeWf

/-- The bits of an instruction are laid out as the tables say: a raw pixel no wider than its format, no operand bits
beside a command word (R83, R91). -/
def Statement (i : Instr) : Prop := (encode i).wf = true

/-- A pixel's bits are well-formed when its raw value fits its format. -/
theorem pixel {f : Format} {raw : Word} (h : raw.toNat < 2 ^ f.bits) : (Encoded.mk .fmt f.tag raw).wf = true := by
  cases f <;> exact decide_eq_true h

/-- Zero extension keeps a raw value below the bound of its width. -/
theorem fits {n : Nat} (v : BitVec n) (h : n ≤ 32) : (v.setWidth 32).toNat < 2 ^ n := by
  rw [BitVec.toNat_setWidth_of_le h]
  exact v.isLt

theorem i1 (i : BitVec 1) : Statement (.i1 i) := pixel (f := .i1) (fits i (by decide))
theorem i4 (i : BitVec 4) : Statement (.i4 i) := pixel (f := .i4) (fits i (by decide))
theorem i8 (i : BitVec 8) : Statement (.i8 i) := pixel (f := .i8) (fits i (by decide))
theorem ia4 (i : BitVec 3) (a : BitVec 1) : Statement (.ia4 i a) := pixel (f := .ia4) (fits (i ++ a) (by decide))
theorem ia8 (i a : BitVec 4) : Statement (.ia8 i a) := pixel (f := .ia8) (fits (i ++ a) (by decide))
theorem ia16 (i a : BitVec 8) : Statement (.ia16 i a) := pixel (f := .ia16) (fits (i ++ a) (by decide))
theorem ci4 (n : BitVec 4) : Statement (.ci4 n) := pixel (f := .ci4) (fits n (by decide))
theorem ci8 (n : BitVec 8) : Statement (.ci8 n) := pixel (f := .ci8) (fits n (by decide))
theorem rgba16 (r g b : BitVec 5) (a : BitVec 1) : Statement (.rgba16 r g b a) :=
  pixel (f := .rgba16) (fits (r ++ g ++ b ++ a) (by decide))
theorem rgba32 (r g b a : BitVec 8) : Statement (.rgba32 r g b a) :=
  pixel (f := .rgba32) (fits (r ++ g ++ b ++ a) (by decide))
theorem decode : Statement .decode := rfl
theorem decodeWindow : Statement .decodeWindow := rfl
theorem colorFromU32 : Statement .colorFromU32 := rfl
theorem colorFromU16 : Statement .colorFromU16 := rfl
theorem colorToU32 : Statement .colorToU32 := rfl
theorem colorToU16 : Statement .colorToU16 := rfl
theorem colorRgb : Statement .colorRgb := rfl

end Sys2Proof.Laws.EncodeWf
end

