-- ==== Sys2Proof/Tests/Slice0.lean ====
section
/-! SUPPORT. Tests: ill-formed terms the checks refuse, words written out from the spec's encodings, one-step vectors of
95_test_vectors.md, and for each statement with hypotheses a state and operands that meet them. -/

namespace Sys2Proof.Machine

/-! ## Well-formedness refuses -/

theorem test_wf_command_with_operand_bits : (Encoded.mk .cmd 1 1).wf = false := by decide
theorem test_wf_unknown_tag : (Encoded.mk .fmt 10 0).wf = false := by decide
theorem test_wf_raw_too_wide : (Encoded.mk .fmt 1 0x10).wf = false ∧ (Encoded.mk .fmt 1 0xF).wf = true := by decide
theorem test_wf_write_too_wide : (HostOp.wr 0 (2 ^ 32)).wf 64 = false ∧ (HostOp.wr 0 (2 ^ 32 - 1)).wf 64 = true := by decide
theorem test_wf_offset_too_wide : (HostOp.wr 3 (2 ^ 64)).wf 64 = false ∧ (HostOp.wr 9 (2 ^ 66)).wf 64 = false ∧
    (HostOp.wr 4 8).wf 3 = false ∧ (HostOp.wr 4 7).wf 3 = true := by decide
theorem test_wf_source_index : (HostOp.srcPoke (2 ^ 64) 0).wf 64 = false ∧ (HostOp.srcPoke 2 0).wf 1 = false := by decide

/-! ## Words written out bit by bit from R83 and R90 -/

theorem test_decode_i1 : decode ⟨.fmt, 0x00000000, 0b1⟩ = .ok (.i1 1) := rfl
theorem test_decode_i4 : decode ⟨.fmt, 0x00000001, 0b1010⟩ = .ok (.i4 0xA) := rfl
theorem test_decode_i8 : decode ⟨.fmt, 0x00000002, 0b00010010⟩ = .ok (.i8 0x12) := rfl
theorem test_decode_ia4 : decode ⟨.fmt, 0x00000003, 0b1100⟩ = .ok (.ia4 6 0) := rfl
theorem test_decode_ia8 : decode ⟨.fmt, 0x00000004, 0b10100101⟩ = .ok (.ia8 0xA 0x5) := rfl
theorem test_decode_ia16 : decode ⟨.fmt, 0x00000005, 0b0001001000110100⟩ = .ok (.ia16 0x12 0x34) := rfl
theorem test_decode_ci4 : decode ⟨.fmt, 0x00000006, 0b1100⟩ = .ok (.ci4 0xC) := rfl
theorem test_decode_ci8 : decode ⟨.fmt, 0x00000007, 0b10000001⟩ = .ok (.ci8 0x81) := rfl
theorem test_decode_rgba16 : decode ⟨.fmt, 0x00000008, 0b1111110000010100⟩ = .ok (.rgba16 31 16 10 0) := rfl
theorem test_decode_rgba32 :
    decode ⟨.fmt, 0x00000009, 0b00010010001101000101011001111000⟩ = .ok (.rgba32 0x12 0x34 0x56 0x78) := rfl
theorem test_decode_decode : decode ⟨.cmd, 0b00000000000000000000000000000001, 0⟩ = .ok .decode := rfl
theorem test_decode_decode_window : decode ⟨.cmd, 0b00000000000000000000000000000010, 0⟩ = .ok .decodeWindow := rfl
theorem test_decode_color_from_u32 : decode ⟨.cmd, 0b00000000000000000000000000000011, 0⟩ = .ok .colorFromU32 := rfl
theorem test_decode_color_from_u16 : decode ⟨.cmd, 0b00000000000000000000000000000100, 0⟩ = .ok .colorFromU16 := rfl
theorem test_decode_color_to_u32 : decode ⟨.cmd, 0b00000000000000000000000000000101, 0⟩ = .ok .colorToU32 := rfl
theorem test_decode_color_to_u16 : decode ⟨.cmd, 0b00000000000000000000000000000110, 0⟩ = .ok .colorToU16 := rfl
theorem test_decode_color_rgb : decode ⟨.cmd, 0b00000000000000000000000000000111, 0⟩ = .ok .colorRgb := rfl
theorem test_decode_no_command : decode ⟨.cmd, 0x80000001, 0⟩ = .error (.illegalCommand 0x80000001) := rfl
theorem test_decode_no_format : decode ⟨.fmt, 0x0000000A, 0⟩ = .error (.unsupportedFormat 10) := rfl

/-! ## The opcode table's words -/

theorem test_table_word_i1 : decodeTableWord 32 0 = some (.i1 0) := by decide
theorem test_table_word_rgba16 : decodeTableWord 32 8 = some (.rgba16 0 0 0 0) := by decide
theorem test_table_word_command : decodeTableWord 32 7 = some .colorRgb := by decide
theorem test_table_word_short_row : decodeTableWord 8 7 = some (.ci8 0) := by decide

/-! ## Small states -/

/-- A block with one decode's operands set and its source supplied. -/
def tile (f : Format) (bytes : List Byte) (w h : Word) : State :=
  { State.reset with
    fmt := f.tag, width := w, height := h, srcLen := bytes.length, src := Memory.ofBytes bytes }

/-- A block inside the decode of a tile two pixels high, at pixel `pix`. -/
def inside (f : Format) (bytes : List Byte) (w : Nat) (pix : Nat) : State :=
  { tile f bytes (BitVec.ofNat 32 w) 2 with
    raster := some { fmt := f, w := BitVec.ofNat 32 w, h := 2, base := 0, avail := bytes.length, pix := pix,
                     x := pix % w, y := pix / w } }

/-- The pixel a memory holds, as a word. -/
def pixelWord (m : Memory) (i : Nat) : Option Word :=
  match m.read (4 * i), m.read (4 * i + 1), m.read (4 * i + 2), m.read (4 * i + 3) with
  | some r, some g, some b, some a => some (Color.mk r g b a).word
  | _, _, _, _ => none

/-- Pixel `i` of DST after a step. -/
def pixelAfter (o : Host.Outcome State Fault Refusal) (i : Nat) : Option Word :=
  match o with
  | .next t => pixelWord t.dst i
  | .fault _ => none
  | .refused _ => none

/-- STATUS, DST_LEN and the pixels of DST after a step. -/
def imageAfter (o : Host.Outcome State Fault Refusal) (n : Nat) : Option (Nat × Nat × List (Option Word)) :=
  match o with
  | .next t => some (t.readReg 8, t.readReg 9, (List.range n).map (pixelWord t.dst))
  | .fault _ => none
  | .refused _ => none

/-- Register `n` and STATUS after a step. -/
def regAfter (o : Host.Outcome State Fault Refusal) (n : Nat) : Option (Nat × Nat) :=
  match o with
  | .next t => some (t.readReg n, t.readReg 8)
  | .fault _ => none
  | .refused _ => none

/-! ## One pixel (vectors V1, S4, V8, V10, V12, V13, V16, V20, S2) -/

theorem test_step_i1_white : pixelAfter (step (inside .i1 [0xB5] 8 0)) 0 = some 0xFFFFFFFF := by decide
theorem test_step_i1_black : pixelAfter (step (inside .i1 [0xB5] 8 1)) 1 = some 0x000000FF := by decide
theorem test_step_i4_high : pixelAfter (step (inside .i4 [0xA5] 2 0)) 0 = some 0xA0A0A0FF := by decide
theorem test_step_i4_low : pixelAfter (step (inside .i4 [0xA5] 2 1)) 1 = some 0x505050FF := by decide
theorem test_step_i8 : pixelAfter (step (inside .i8 [0x00, 0x7F] 2 1)) 1 = some 0x7F7F7FFF := by decide
theorem test_step_i8_missing : pixelAfter (step (inside .i8 [0x12, 0xFE] 4 2)) 2 = some 0x00000000 := by decide
theorem test_step_ia4_high : pixelAfter (step (inside .ia4 [0x3C] 2 0)) 0 = some 0x242424FF := by decide
theorem test_step_ia4_low : pixelAfter (step (inside .ia4 [0x3C] 2 1)) 1 = some 0xDBDBDB00 := by decide
theorem test_step_ia8 : pixelAfter (step (inside .ia8 [0xA5, 0x3C] 2 0)) 0 = some 0xAAAAAA55 := by decide
theorem test_step_ia8_next : pixelAfter (step (inside .ia8 [0xA5, 0x3C] 2 1)) 1 = some 0x333333CC := by decide
theorem test_step_ia16 : pixelAfter (step (inside .ia16 [0x12, 0x34] 2 0)) 0 = some 0x12121234 := by decide
theorem test_step_ia16_partial : pixelAfter (step (inside .ia16 [0, 0, 0x80] 2 1)) 1 = some 0x80808000 := by decide
theorem test_step_ci4 : regAfter (step (inside .ci4 [0x3C] 2 0)) 9 = some (0, 0x13) := by decide
theorem test_step_ci8 : regAfter (step (inside .ci8 [0x00] 2 0)) 9 = some (0, 0x13) := by decide
theorem test_step_rgba16 : pixelAfter (step (inside .rgba16 [0x07, 0xC0] 2 0)) 0 = some 0x00FF0000 := by decide
theorem test_step_rgba16_partial : pixelAfter (step (inside .rgba16 [0xAA] 2 0)) 0 = some 0xAD420000 := by decide
theorem test_step_rgba32 : pixelAfter (step (inside .rgba32 [0x12, 0x34, 0x56, 0x78] 2 0)) 0 = some 0x12345678 := by
  decide
theorem test_step_rgba32_partial : pixelAfter (step (inside .rgba32 [0xAA, 0xBB, 0xCC] 2 0)) 0 = some 0xAABBCC00 := by
  decide

/-! ## The commands, each one write to CMD -/

/-- V5: row 1 begins at the low nibble of byte 1. -/
theorem test_decode_crosses_rows :
    imageAfter (step ((tile .i4 [0xA5, 0xC3, 0x7E] 3 2).withCommand 1)) 6 =
      some (1, 0x18, [some 0xA0A0A0FF, some 0x505050FF, some 0xC0C0C0FF, some 0x303030FF, some 0x707070FF,
        some 0xE0E0E0FF]) := by decide

/-- S5: a short read. -/
theorem test_decode_short_read :
    imageAfter (step ((tile .i8 [0x12, 0xFE] 4 1).withCommand 1)) 4 =
      some (1, 0x10, [some 0x121212FF, some 0xFEFEFEFF, some 0x00000000, some 0x00000000]) := by decide

/-- P6: a 5-5-5-1 window with a cut last pixel. -/
theorem test_window_cut_pixel :
    imageAfter (step ((State.withCommand { tile .rgba16 [0, 0xF8, 1, 7, 0xC1, 0xFF] 2 2 with offset := 1 }) 2)) 4 =
      some (1, 0x10, [some 0xFF0000FF, some 0x00FF00FF, some 0xFFE70000, some 0x00000000]) := by decide

/-- V41, V43: the offset test comes before the tag test. -/
theorem test_window_past_the_end :
    regAfter (step (State.withCommand { tile .i8 [0x11, 0x22, 0x33, 0x44] 2 1 with offset := 4, fmt := 0xA } 2)) 9 =
      some (0, 2) := by decide

theorem test_color_from_u32 :  -- V35
    regAfter (step (State.withCommand { State.reset with packed := 0x9ABCDEF0 } 3)) 5 = some (0x9ABCDEF0, 4) := by decide
theorem test_color_from_u16 :  -- V26
    regAfter (step (State.withCommand { State.reset with packed := 0xFFFF1234 } 4)) 5 = some (0x1042D600, 4) := by decide
theorem test_color_to_u32 :  -- V34
    regAfter (step (State.withCommand { State.reset with color := 0x12345678 } 5)) 6 = some (0x12345678, 4) := by decide
theorem test_color_to_u16 :  -- V31
    regAfter (step (State.withCommand { State.reset with color := 0x12345678 } 6)) 6 = some (0x00001194, 4) := by decide
theorem test_color_to_u16_truncates :  -- V32
    regAfter (step (State.withCommand { State.reset with color := 0x7F80077F } 6)) 6 = some (0x00007C00, 4) := by decide
theorem test_color_rgb :  -- V36
    regAfter (step (State.withCommand { State.reset with color := 0x10203000 } 7)) 5 = some (0x102030FF, 4) := by decide
theorem test_illegal_command :  -- V50
    regAfter (step (State.withCommand State.reset 0x11)) 9 = some (0, 0x33) := by decide
theorem test_unsupported_format :  -- V47
    regAfter (step (State.withCommand { State.reset with fmt := 0x12 } 1)) 0 = some (0x12, 0x23) := by decide

/-! ## A platform that fixes ADDR_W and MAX_PIXELS otherwise -/

/-- R266: one pixel more than DST can take. -/
theorem test_capacity_refuses :
    (match exec .decode { tile .i8 [] 2 2 with maxPixels := some 3 } with
      | .refused r => some r
      | .next _ => none
      | .fault _ => none) = some (.destinationCapacity 4) := by decide

/-- R7, R23: with three bits of address 7 can be written to OFFSET, and 8 cannot. -/
theorem test_narrow_offset :
    regAfter (step { State.resetOn 3 none with host := [.wr 3 7] }) 3 = some (7, 0) ∧
    regAfter (step { State.resetOn 3 none with host := [.wr 3 8] }) 3 = none := by decide

/-! ## Placing a table word -/

theorem test_fetch_word_pixel : imageAfter (step (State.reset.withFetchWord 32 0)) 1 =
    some (1, 4, [some 0x000000FF]) := by decide
theorem test_fetch_word_rgba32 : imageAfter (step (State.reset.withFetchWord 32 9)) 1 =
    some (1, 4, [some 0x00000000]) := by decide
theorem test_fetch_word_short_row : regAfter (step (State.reset.withFetchWord 8 6)) 9 = some (0, 0x13) := by decide
theorem test_fetch_word_command : regAfter (step (State.reset.withFetchWord 32 7)) 5 = some (0xFF, 4) := by decide

/-! ## Witnesses: what meets the hypotheses of each statement -/

/-- One block between commands, the host about to make one access. -/
def asks (op : HostOp) : State := { State.reset with host := [op] }

theorem witness_encode_of_decode : ∃ e i, decode e = .ok i := ⟨⟨.fmt, 9, 0xFFFFFFFF⟩, _, rfl⟩

theorem witness_decodes_exactly_the_table :
    (∃ i, decode ⟨.cmd, 1, 0⟩ = .ok i) ∧ (∃ i, decode ⟨.cmd, 7, 0⟩ = .ok i) ∧ (∃ i, decode ⟨.fmt, 0, 1⟩ = .ok i) ∧
    (∃ i, decode ⟨.fmt, 9, 0xFFFFFFFF⟩ = .ok i) := ⟨⟨_, rfl⟩, ⟨_, rfl⟩, ⟨_, rfl⟩, ⟨_, rfl⟩⟩

theorem witness_expansion_properties : (1 : BitVec 5) < 2 ∧ (1 : BitVec 3) < 2 ∧ (1 : BitVec 4) < 2 ∧ (0 : BitVec 1) < 1 ∧
    lut5 ((0x10 : Byte).extractLsb' 3 5) = 0x10 := by decide

theorem witness_slice_byte : (1 < (⟨[], 3, 2⟩ : Slice).avail) ∧ ((⟨[], 3, 2⟩ : Slice).avail ≤ 2) ∧
    (⟨[], 3, 2⟩ : Slice).avail = 5 - (⟨[], 3, 2⟩ : Slice).base := by decide

/-- Two bytes there, two beyond the end of the slice. -/
theorem witness_slice_read :
    let sl : Slice := ⟨Memory.ofBytes [0xAA, 0xBB], 0, 2⟩
    sl.byte 0 = some 0xAA ∧ sl.byte 1 = some 0xBB ∧ sl.byte 2 = some 0 ∧ sl.byte 3 = some 0 := by decide

theorem witness_fetch_places : Format.i4.bits = 4 ∧ Format.ia4.bits = 4 ∧ Format.ci4.bits = 4 ∧ Format.i8.bits = 8 ∧
    Format.ia8.bits = 8 ∧ Format.ci8.bits = 8 ∧ Format.ia16.bits = 16 ∧ Format.rgba16.bits = 16 ∧
    Format.rgba32.bits = 32 := by decide

theorem witness_presence :
    Format.rgba32.presence 4 0 = .present ∧ Format.rgba32.presence 3 0 = .partlyPresent ∧
    Format.rgba32.presence 0 0 = .whollyMissing ∧ Format.ia16.presence 1 0 = .partlyPresent ∧
    Format.rgba16.presence 1 0 = .partlyPresent ∧ (Format.i1.bits < 8 ∧ 0 * Format.i1.bits / 8 = 7 * Format.i1.bits / 8) ∧
    Format.i8.presence 1 1 = .whollyMissing := by decide

theorem witness_short_fill : Format.i1.isPalette = false ∧ Format.i1.presence 1 8 = .whollyMissing ∧
    Format.i1.presence 1 7 ≠ .whollyMissing ∧ Format.rgba16.isPalette = false ∧
    Format.rgba16.presence 1 0 ≠ .whollyMissing ∧ Format.rgba16.presence 2 1 = .whollyMissing := by decide

theorem witness_window_slides : Format.i1.bits ≤ 8 ∧ Format.i4.bits ≤ 8 ∧ Format.i8.bits ≤ 8 := by decide

/-- A decode in progress, at the last pixel its source has and at the first it has not. -/
theorem witness_pixel_completes : ∃ s r, s.raster = some r ∧ s = inside .i8 [0x12] 4 0 := ⟨_, _, rfl, rfl⟩

theorem witness_intensity_from_source :
    (∃ r, (inside .i1 [0xB5] 8 7).raster = some r ∧ r.fmt = .i1 ∧ r.pix / 8 < r.avail ∧
      (r.slice (inside .i1 [0xB5] 8 7).src).byte (r.pix / 8) = some 0xB5) ∧
    (∃ r, (inside .i4 [0xA5] 2 1).raster = some r ∧ r.fmt = .i4 ∧ r.pix / 2 < r.avail ∧
      (r.slice (inside .i4 [0xA5] 2 1).src).byte (r.pix / 2) = some 0xA5) ∧
    (∃ r, (inside .i8 [0x12] 2 0).raster = some r ∧ r.fmt = .i8 ∧ r.pix < r.avail ∧
      (r.slice (inside .i8 [0x12] 2 0).src).byte r.pix = some 0x12) :=
  ⟨⟨_, rfl, by decide⟩, ⟨_, rfl, by decide⟩, ⟨_, rfl, by decide⟩⟩

theorem witness_intensity_alpha_from_source :
    (∃ r, (inside .ia4 [0x3C] 2 1).raster = some r ∧ r.fmt = .ia4 ∧ r.pix / 2 < r.avail ∧
      (r.slice (inside .ia4 [0x3C] 2 1).src).byte (r.pix / 2) = some 0x3C) ∧
    (∃ r, (inside .ia8 [0xA5] 2 0).raster = some r ∧ r.fmt = .ia8 ∧ r.pix < r.avail ∧
      (r.slice (inside .ia8 [0xA5] 2 0).src).byte r.pix = some 0xA5) ∧
    (∃ r, (inside .ia16 [0xAA] 2 0).raster = some r ∧ r.fmt = .ia16 ∧ 2 * r.pix < r.avail ∧
      (r.slice (inside .ia16 [0xAA] 2 0).src).byte (2 * r.pix) = some 0xAA ∧
      (r.slice (inside .ia16 [0xAA] 2 0).src).byte (2 * r.pix + 1) = some 0x00) :=
  ⟨⟨_, rfl, by decide⟩, ⟨_, rfl, by decide⟩, ⟨_, rfl, by decide⟩⟩

theorem witness_direct_color_from_source :
    (∃ r, (inside .rgba16 [0xAA] 2 0).raster = some r ∧ r.fmt = .rgba16 ∧ 2 * r.pix < r.avail ∧
      (r.slice (inside .rgba16 [0xAA] 2 0).src).byte (2 * r.pix) = some 0xAA ∧
      (r.slice (inside .rgba16 [0xAA] 2 0).src).byte (2 * r.pix + 1) = some 0x00) ∧
    (∃ r, (inside .rgba32 [0x9A, 0xBC] 2 0).raster = some r ∧ r.fmt = .rgba32 ∧ 4 * r.pix < r.avail ∧
      (r.slice (inside .rgba32 [0x9A, 0xBC] 2 0).src).byte (4 * r.pix) = some 0x9A ∧
      (r.slice (inside .rgba32 [0x9A, 0xBC] 2 0).src).byte (4 * r.pix + 1) = some 0xBC ∧
      (r.slice (inside .rgba32 [0x9A, 0xBC] 2 0).src).byte (4 * r.pix + 2) = some 0x00 ∧
      (r.slice (inside .rgba32 [0x9A, 0xBC] 2 0).src).byte (4 * r.pix + 3) = some 0x00) :=
  ⟨⟨_, rfl, by decide⟩, ⟨_, rfl, by decide⟩⟩

theorem witness_wholly_missing : ∃ r, (inside .i1 [0xB5] 8 8).raster = some r ∧ r.fmt.isPalette = false ∧
    r.avail ≤ r.pix * r.fmt.bits / 8 := ⟨_, rfl, by decide⟩

theorem witness_color_index : (tile .ci4 [1, 2] 2 1).fmt = 6 ∧ (tile .ci8 [1, 2] 2 1).fmt = 7 ∧
    (tile .ci4 [1, 2] 2 1).offset < (tile .ci4 [1, 2] 2 1).srcLen := by decide

/-- A whole tile, an empty tile, and a tile longer than its source. -/
theorem witness_decode_makes_the_image :
    (let s : State := { tile .i8 [0x12, 0xFE] 4 1 with maxPixels := some 4 }
     Format.ofTag s.fmt = some .i8 ∧ Format.i8.isPalette = false ∧
      (∀ m, s.maxPixels = some m → s.width.toNat * s.height.toNat ≤ m) ∧
      Slice.supplied ⟨s.src, 0, s.srcLen⟩ .i8 (s.width.toNat * s.height.toNat)) ∧
    (let s : State := tile .i8 [] 0 5
     (∀ m, s.maxPixels = some m → s.width.toNat * s.height.toNat ≤ m) ∧
      Slice.supplied ⟨s.src, 0, s.srcLen⟩ .i8 (s.width.toNat * s.height.toNat)) := by
  refine ⟨⟨rfl, rfl, fun m h => ?_, fun k hk _ => ?_⟩, (fun m h => by cases h), fun k hk _ => ?_⟩
  · cases h
    decide
  · have : k < 2 := hk
    obtain rfl | rfl : k = 0 ∨ k = 1 := by omega
    · rfl
    · rfl
  · exact absurd hk (Nat.not_lt_zero k)

/-- The last byte of the source. -/
theorem witness_window_makes_the_image :
    let s : State := { tile .i8 [0x11, 0x22] 2 1 with offset := 1 }
    Format.ofTag s.fmt = some .i8 ∧ Format.i8.isPalette = false ∧ s.offset < s.srcLen ∧
    (∀ m, s.maxPixels = some m → 2 * 1 ≤ m) ∧
    Slice.supplied ⟨s.src, s.offset, s.srcLen - s.offset⟩ .i8 2 := by
  refine ⟨rfl, rfl, by decide, (fun m h => by cases h), ?_⟩
  intro k hk _
  have : k < 1 := hk
  obtain rfl : k = 0 := by omega
  rfl

theorem witness_window_past_the_end :
    (let s : State := { tile .i8 [0x11] 2 1 with offset := 1 }; s.srcLen ≤ s.offset) ∧
    (let s : State := tile .i8 [0x11] 2 1; s.offset < s.srcLen ∧ ∃ t, exec .decodeWindow s = .next t) ∧
    (∃ t, exec .decode (tile .i8 [] 2 1) = .next t) :=
  ⟨by decide, ⟨by decide, _, rfl⟩, _, rfl⟩

theorem witness_unknown_tag : 10 ≤ ({ tile .i8 [0x11] 2 1 with fmt := 10 } : State).fmt.toNat ∧
    ({ tile .i8 [0x11] 2 1 with fmt := 10 } : State).offset < ({ tile .i8 [0x11] 2 1 with fmt := 10 } : State).srcLen ∧
    10 ≤ ({ tile .i8 [0x11] 2 1 with fmt := 0xFFFFFFFF } : State).fmt.toNat := by decide

theorem witness_window_at_zero : (tile .i8 [0x11] 2 1).offset = 0 ∧ 1 ≤ (tile .i8 [0x11] 2 1).srcLen := by decide

/-- Every outcome of a write to CMD is reached, at the values where the clauses meet. -/
theorem witness_command_results :
    (∃ t, step ((tile .i8 [0x11] 1 1).withCommand 0) = .next t) ∧
    (∃ t, step ((tile .i8 [0x11] 1 1).withCommand 8) = .next t) ∧
    (∃ t, step ((tile .i8 [0x11] 1 1).withCommand 3) = .next t) ∧
    (∃ t, step ((tile .i8 [0x11] 1 1).withCommand 7) = .next t) ∧
    (∃ t, step ((tile .i8 [] 1 1).withCommand 2) = .next t) ∧
    (∃ t, step ((State.withCommand { tile .i8 [0x11] 1 1 with fmt := 10 }) 1) = .next t) ∧
    (∃ t, step ((tile .ci4 [0x11] 1 1).withCommand 1) = .next t) ∧
    (∃ t, step ((tile .ci8 [0x11] 1 1).withCommand 2) = .next t) ∧
    (∃ t, step ((tile .i8 [0x11] 1 1).withCommand 1) = .next t ∧ t.status = .image) :=
  ⟨⟨_, rfl⟩, ⟨_, rfl⟩, ⟨_, rfl⟩, ⟨_, rfl⟩, ⟨_, rfl⟩, ⟨_, rfl⟩, ⟨_, rfl⟩, ⟨_, rfl⟩, ⟨_, rfl, rfl⟩⟩

/-- A limit one pixel short, one that the tile just meets, a palette format, an unknown tag, and a window. -/
theorem witness_capacity : Format.ofTag (tile .i8 [] 2 2).fmt = some .i8 ∧ Format.i8.isPalette = false ∧
    3 < (tile .i8 [] 2 2).width.toNat * (tile .i8 [] 2 2).height.toNat ∧
    (tile .i8 [] 2 2).width.toNat * (tile .i8 [] 2 2).height.toNat ≤ 4 ∧
    (Format.ofTag (tile .ci4 [] 2 2).fmt = some .ci4 ∧ Format.ci4.isPalette = true) ∧
    Format.ofTag 10 = none ∧ (tile .i8 [1] 2 2).offset < (tile .i8 [1] 2 2).srcLen := by decide

/-- SRC_LEN says one byte, and none was supplied; SRC_LEN says two, and the second was not supplied. -/
theorem witness_unsupplied :
    (let s : State := { tile .i8 [] 1 1 with srcLen := 1, maxPixels := some 1 }
     Format.ofTag s.fmt = some .i8 ∧ Format.i8.isPalette = false ∧
      (∀ m, s.maxPixels = some m → s.width.toNat * s.height.toNat ≤ m) ∧
      ¬ Slice.supplied ⟨s.src, 0, s.srcLen⟩ .i8 (s.width.toNat * s.height.toNat)) ∧
    (let s : State := { tile .i8 [1] 1 1 with srcLen := 2, offset := 1 }
     (∀ m, s.maxPixels = some m → s.width.toNat * s.height.toNat ≤ m) ∧ s.offset < s.srcLen ∧
      ¬ Slice.supplied ⟨s.src, s.offset, s.srcLen - s.offset⟩ .i8 (s.width.toNat * s.height.toNat)) := by
  refine ⟨⟨rfl, rfl, fun m h => ?_, fun h => ?_⟩, (fun m h => by cases h), by decide, fun h => ?_⟩
  · cases h
    decide
  · cases h 0 (by decide) (by decide)
  · cases h 0 (by decide) (by decide)

/-- A byte beyond what the tile needs differs. -/
theorem witness_reads_only_what_it_needs :
    Format.ofTag (tile .i8 [1, 2] 1 1).fmt = some .i8 ∧
    (∀ k, k < (tile .i8 [1, 2] 1 1).srcLen → k < Format.i8.need 1 →
      (Memory.ofBytes [1, 3]).read k = (tile .i8 [1, 2] 1 1).src.read k) ∧
    (∃ t, exec .decode (tile .i8 [1, 2] 1 1) = .next t) := by
  refine ⟨rfl, fun k _ hk => ?_, _, rfl⟩
  have : k < 1 := hk
  obtain rfl : k = 0 := by omega
  rfl

/-- A byte below the window and a byte beyond what the tile needs differ. -/
theorem witness_window_reads_only_what_it_needs :
    let s : State := { tile .i8 [1, 2, 3] 1 1 with offset := 1 }
    Format.ofTag s.fmt = some .i8 ∧
    (∀ k, k < s.srcLen - s.offset → k < Format.i8.need 1 →
      (Memory.ofBytes [9, 2, 9]).read (s.offset + k) = s.src.read (s.offset + k)) ∧
    (∃ t, exec .decodeWindow s = .next t) := by
  refine ⟨rfl, fun k _ hk => ?_, _, rfl⟩
  have : k < 1 := hk
  obtain rfl : k = 0 := by omega
  rfl

/-- Two blocks that differ in the results of an earlier command. -/
theorem witness_stateless :
    let s := tile .i8 [0x11] 1 1
    let s' : State := { s with status := .fault .illegalCommand, dst := [(9, 9)] }
    s.maxPixels = s'.maxPixels ∧ s.fmt = s'.fmt ∧ s.src = s'.src ∧ s.color = s'.color ∧ s ≠ s' ∧ ∃ t, commandWrite 1 s = .next t :=
  ⟨rfl, rfl, rfl, rfl, by decide, _, rfl⟩

theorem witness_tile_shape : ∃ t, exec .decode (tile .i4 [0xA5] 2 3) = .next t ∧ t.status = .image ∧
    (6 : Word).toNat * (1 : Word).toNat = (tile .i4 [0xA5] 2 3).width.toNat * (tile .i4 [0xA5] 2 3).height.toNat :=
  ⟨_, rfl, rfl, by decide⟩

theorem witness_stepwise : Format.ofTag (tile .i4 [0xA5] 2 3).fmt = some .i4 ∧ Format.i4.isPalette = false ∧
    (∃ t, exec .decode (tile .i4 [0xA5] 2 3) = .next t) ∧
    (let s : State := { tile .i4 [0xA5, 0x3C] 2 3 with offset := 1 }
     s.offset < s.srcLen ∧ ∃ t, exec .decodeWindow s = .next t) := ⟨rfl, rfl, ⟨_, rfl⟩, by decide, _, rfl⟩

theorem witness_fit : 0 < 1 ∧ ([7] : List Byte).length = 1 := by decide

/-- A short read, so that the padding is not empty. -/
theorem witness_padded :
    (∃ t, exec .decode (tile .i8 [0x12] 2 1) = .next t ∧ t.status = .image) ∧
    (∃ t, exec .decodeWindow { tile .i8 [0x12, 0x34] 2 1 with offset := 1 } = .next t ∧ t.status = .image) :=
  ⟨⟨_, rfl, rfl⟩, _, rfl, rfl⟩

theorem witness_literal_rgba :
    (asks (.wr 5 ((0x12 : Byte) ++ (0x34 : Byte) ++ (0x56 : Byte) ++ (0x78 : Byte)).toNat)).raster = none ∧
    (asks (.wr 5 ((0x12 : Byte) ++ (0x34 : Byte) ++ (0x56 : Byte) ++ (0x78 : Byte)).toNat)).host =
      [.wr 5 ((0x12 : Byte) ++ (0x34 : Byte) ++ (0x56 : Byte) ++ (0x78 : Byte)).toNat] := ⟨rfl, rfl⟩

theorem witness_round_trips :
    (∃ t u, exec .colorToU32 State.reset = .next t ∧ exec .colorFromU32 t = .next u) ∧
    (∃ t u, exec .colorFromU32 State.reset = .next t ∧ exec .colorToU32 t = .next u) ∧
    (∃ t u, exec .colorFromU16 State.reset = .next t ∧ exec .colorToU16 t = .next u) ∧
    (∃ t u, exec .colorToU16 State.reset = .next t ∧ exec .colorFromU16 t = .next u) :=
  ⟨⟨_, _, rfl, rfl⟩, ⟨_, _, rfl, rfl⟩, ⟨_, _, rfl, rfl⟩, ⟨_, _, rfl, rfl⟩⟩

theorem witness_reset_and_idle : (asks .reset).raster = none ∧ (asks .reset).host = [.reset] ∧
    (HostOp.rd 8 ≠ .reset ∧ (∀ v, HostOp.rd 8 ≠ .wr 7 v) ∧ ∃ t, step (asks (.rd 8)) = .next t) ∧
    State.reset.host = [] := ⟨rfl, rfl, ⟨by decide, (fun v h => by cases h), _, rfl⟩, rfl⟩

theorem witness_register_access :
    (asks (.rd 11)).host = [.rd 11] ∧
    (∃ t, step (asks (.wr 0 (2 ^ 32 - 1))) = .next t) ∧ (∃ t, step (asks (.wr 6 (2 ^ 32 - 1))) = .next t) ∧
    (∃ t, step (asks (.wr 3 (2 ^ 64 - 1))) = .next t) ∧ (∃ t, step (asks (.wr 4 (2 ^ 64 - 1))) = .next t) ∧
    (∃ t, step (asks (.wr 8 (2 ^ 32 - 1))) = .next t) ∧ (∃ t, step (asks (.wr 9 (2 ^ 66 - 1))) = .next t) ∧
    (∃ t, step (asks (.wr 11 0)) = .next t) ∧ (∃ t, step (asks (.wr 12 (2 ^ 99))) = .next t) :=
  ⟨rfl, ⟨_, rfl⟩, ⟨_, rfl⟩, ⟨_, rfl⟩, ⟨_, rfl⟩, ⟨_, rfl⟩, ⟨_, rfl⟩, ⟨_, rfl⟩, ⟨_, rfl⟩⟩

theorem witness_host_misuse :
    (asks (.wr 0 (2 ^ 32))).host = [.wr 0 (2 ^ 32)] ∧ Reg.ofNumber 0 = some .fmt ∧ 2 ^ Reg.fmt.bits 64 ≤ 2 ^ 32 ∧
    (asks (.srcPoke (2 ^ 64) 0)).host = [.srcPoke (2 ^ 64) 0] ∧ 2 ^ State.reset.addrW ≤ 2 ^ 64 ∧
    (asks (.rdDst 0)).host = [.rdDst 0] ∧ (asks (.rdDst 0)).status ≠ .image := by decide

/-- A source too long for ADDR_W bits; only its length is looked at. -/
theorem witness_source_too_long : ∃ bytes : List Byte, 2 ^ State.reset.addrW < bytes.length :=
  ⟨List.replicate (2 ^ State.reset.addrW + 1) 0, by rw [List.length_replicate]; exact Nat.lt_succ_self _⟩

theorem witness_host_supplies_source :
    (∃ t, step (asks (.srcPoke (2 ^ 64 - 1) 5)) = .next t) ∧ (∃ t, step (asks (.srcLoad [1, 2])) = .next t) :=
  ⟨⟨_, rfl⟩, ⟨_, rfl⟩⟩

/-- One valid pixel in DST. -/
def onePixel (op : HostOp) : State :=
  { State.reset with
    status := .image, dstLen := 4, outWidth := 1, outHeight := 1, host := [op]
    dst := [(0, 1), (1, 2), (2, 3), (3, 4)] }

theorem onePixel_inv (op : HostOp) : (onePixel op).Inv where
  addrWPos := Nat.le_of_ble_eq_true rfl
  offsetBits := Nat.two_pow_pos _
  srcLenBits := Nat.two_pow_pos _
  capacity := fun m h => by cases h
  srcWf := List.Pairwise.nil
  dstWf := by simp [onePixel, Memory.wf]
  srcBound := fun c hc => by cases hc
  dstBound := by simp [onePixel, Config.dstW]
  image := fun _ => ⟨rfl, fun k hk => by
    have : k < 4 := hk
    obtain rfl | rfl | rfl | rfl : k = 0 ∨ k = 1 ∨ k = 2 ∨ k = 3 := by omega
    all_goals rfl⟩
  noImage := fun h => absurd rfl h
  raster := fun r h => by cases h

theorem witness_dst_validity :
    (onePixel (.rdDst 3)).Inv ∧ (onePixel (.rdDst 3)).raster = none ∧ (onePixel (.rdDst 3)).status = .image ∧
    3 < (onePixel (.rdDst 3)).dstLen.toNat ∧ (onePixel (.rdDst 4)).Inv ∧ (onePixel (.rdDst 4)).dstLen.toNat ≤ 4 ∧
    State.reset.status ≠ .image :=
  ⟨onePixel_inv _, rfl, rfl, by decide, onePixel_inv _, by decide, by decide⟩

theorem witness_illegal_command : (asks (.wr 7 0)).host = [.wr 7 0] ∧ (asks (.wr 7 8)).raster = none ∧
    (0 < 2 ^ 32 ∧ 8 < 2 ^ 32 ∧ 7 < 8) ∧ 2 ^ 32 - 1 < 2 ^ 32 := by decide

theorem witness_fault_changes_nothing_else :
    (∃ t, commandWrite 8 State.reset = .next t ∧ t.status = .fault .illegalCommand) ∧
    (∃ t, commandWrite 1 { State.reset with fmt := 10 } = .next t ∧ t.status = .fault .unsupportedFormat) ∧
    (∃ t, commandWrite 1 { State.reset with fmt := 6 } = .next t ∧ t.status = .fault .unresolvedPaletteFormat) :=
  ⟨⟨_, rfl, rfl⟩, ⟨_, rfl, rfl⟩, ⟨_, rfl, rfl⟩⟩

theorem witness_step_runs_the_command : (asks (.wr 7 (7 : Word).toNat)).raster = none ∧
    (asks (.wr 7 (7 : Word).toNat)).host = [.wr 7 (7 : Word).toNat] ∧ decode ⟨.cmd, 7, 0⟩ = .ok .colorRgb :=
  ⟨rfl, rfl, rfl⟩

/-- A pixel that is there, and one whose byte was never supplied. -/
theorem witness_step_runs_the_pixel :
    (∃ r raw i, (inside .i4 [0xA5] 2 1).raster = some r ∧
      (r.slice (inside .i4 [0xA5] 2 1).src).fetch r.fmt r.pix = some raw ∧ decode ⟨.fmt, r.fmt.tag, raw⟩ = .ok i) ∧
    (∃ r, ({ inside .i4 [0xA5] 2 1 with src := [] } : State).raster = some r ∧ (r.slice []).fetch r.fmt r.pix = none) :=
  ⟨⟨_, _, _, rfl, rfl, rfl⟩, ⟨_, rfl, rfl⟩⟩

theorem witness_fetched_pixels : ∃ raw, (⟨Memory.ofBytes [0xA5], 0, 1⟩ : Slice).fetch .i4 1 = some raw := ⟨_, rfl⟩

theorem witness_host_waits : (inside .i4 [0xA5] 2 1).raster ≠ none ∧ ∃ t, step (inside .i4 [0xA5] 2 1) = .next t :=
  ⟨by decide, _, rfl⟩

theorem reset_inv : State.reset.Inv where
  addrWPos := by decide
  offsetBits := by decide
  srcLenBits := by decide
  capacity := fun m h => by cases h
  srcWf := List.Pairwise.nil
  dstWf := List.Pairwise.nil
  srcBound := fun c hc => by cases hc
  dstBound := fun c hc => by cases hc
  image := fun h => by cases h
  noImage := fun _ => ⟨rfl, rfl, rfl⟩
  raster := fun r h => by cases h

/-- A decode in progress that meets the invariant, at its first pixel. -/
theorem inside_inv : (inside .i8 [0x12] 1 0).Inv where
  addrWPos := by decide
  offsetBits := by decide
  srcLenBits := by decide
  capacity := fun m h => by cases h
  srcWf := by simp [inside, tile, Memory.ofBytes, Memory.writeBytes, Memory.write, Memory.wf]
  dstWf := List.Pairwise.nil
  srcBound := by simp [inside, tile, Memory.ofBytes, Memory.writeBytes, Memory.write]
  dstBound := fun c hc => by cases hc
  image := fun h => by cases h
  noImage := fun _ => ⟨rfl, rfl, rfl⟩
  raster := fun r h => by
    cases h
    exact ⟨⟨rfl, by decide, by decide, by decide, rfl, by decide⟩, fun k hk => absurd hk (Nat.not_lt_zero k)⟩

/-- A decode in progress at the one pixel of its tile, on a platform with one bit of address and room for one pixel. -/
def lastPixel : State :=
  { tile .i8 [0x12] 1 1 with
    addrW := 1
    maxPixels := some 1
    raster := some { fmt := .i8, w := 1, h := 1, base := 0, avail := 1, pix := 0, x := 0, y := 0 } }

theorem lastPixel_inv : lastPixel.Inv where
  addrWPos := by decide
  offsetBits := by decide
  srcLenBits := by decide
  capacity := fun m h => by
    cases h
    exact ⟨fun h => (by cases h), fun r h => by cases h; decide⟩
  srcWf := by simp [lastPixel, tile, Memory.ofBytes, Memory.writeBytes, Memory.write, Memory.wf]
  dstWf := List.Pairwise.nil
  srcBound := by simp [lastPixel, tile, Memory.ofBytes, Memory.writeBytes, Memory.write]
  dstBound := fun c hc => by cases hc
  image := fun h => by cases h
  noImage := fun _ => ⟨rfl, rfl, rfl⟩
  raster := fun r h => by
    cases h
    exact ⟨⟨rfl, by decide, by decide, by decide, rfl, by decide⟩, fun k hk => absurd hk (Nat.not_lt_zero k)⟩

theorem witness_step_keeps_the_invariant :
    ((inside .i8 [0x12] 1 0).Inv ∧ ∃ t, step (inside .i8 [0x12] 1 0) = .next t) ∧
    (lastPixel.Inv ∧ ∃ t, step lastPixel = .next t) := ⟨⟨inside_inv, _, rfl⟩, lastPixel_inv, _, rfl⟩

theorem witness_reset_meets_the_invariant : 1 ≤ 1 ∧ 1 ≤ Config.suggestedAddrW := by decide

theorem witness_counters : ∃ r, (inside .i8 [0x12] 1 0).Inv ∧ (inside .i8 [0x12] 1 0).raster = some r :=
  ⟨_, inside_inv, rfl⟩

/-- The last pixel of a tile of one, and the first of a tile of two. -/
theorem witness_raster_advances :
    (∃ r, (inside .i8 [0x12] 1 0).Inv ∧ (inside .i8 [0x12] 1 0).raster = some r ∧
      r.pix + 1 < r.w.toNat * r.h.toNat ∧ ∃ t, step (inside .i8 [0x12] 1 0) = .next t) ∧
    (∃ r, (lastPixel).Inv ∧ lastPixel.raster = some r ∧ r.pix + 1 = r.w.toNat * r.h.toNat ∧
      ∃ t, step lastPixel = .next t) :=
  ⟨⟨_, inside_inv, rfl, by decide, _, rfl⟩, ⟨_, lastPixel_inv, rfl, by decide, _, rfl⟩⟩

theorem witness_image_is_fresh : ∃ t, commandWrite 1 (tile .i8 [0x12] 2 1) = .next t ∧ t.status = .image :=
  ⟨_, rfl, rfl⟩

end Sys2Proof.Machine
end

section
/-! SUPPORT. Proofs about the raster position of a decode in progress. -/

namespace Sys2Proof.Machine

/-- All that a step inside a decode command can answer as a next state: the pixel's colour stored and the raster moved
on (R193, R196). -/
theorem step_eq_next_iff_pixelAt {s t : State} {r : Raster} (h : s.raster = some r) (hf : r.fmt.isPalette = false) :
    step s = .next t ↔
      ∃ c, pixelColor Config.shortFill (r.slice s.src) r.fmt r.pix = some c ∧ s.pixelAt r c = t := by
  rw [step_eq_rasterStep h, rasterStep_eq h hf]
  cases pixelColor Config.shortFill (r.slice s.src) r.fmt r.pix with
  | none => simp
  | some c => simp

/-- Settles O37: the invariant says where the raster stands, and a step's only next state is the one after the pixel at
PIX, whose `PixelDone` says how the position moves. -/
theorem rasterAdvancesInOrder : Obligations.RasterAdvancesInOrder := by
  unfold Obligations.RasterAdvancesInOrder
  intro s r hinv hr
  obtain ⟨hraster, -⟩ := hinv.raster r hr
  refine ⟨⟨hraster.row, hraster.column, hraster.order, hraster.inTile⟩, fun t ht => ?_⟩
  obtain ⟨c, -, rfl⟩ := (step_eq_next_iff_pixelAt hr hraster.direct).mp ht
  have done := s.pixelAt_done r c
  constructor
  · intro hmore
    exact (done.goesOn hmore).1
  · intro hlast
    obtain ⟨hnone, himage, -⟩ := done.ends hlast.ge
    exact ⟨hnone, himage⟩

end Sys2Proof.Machine
end

section
/-! SUPPORT. Proofs about how much of the source a decode reads, and how the bytes of a slice are assembled. -/

namespace Sys2Proof.Machine

/-! ## What a decode reads of SRC -/

/-- The palette test comes before any byte of SRC is read (R193). -/
theorem decodeCommon_of_isPalette {max : Option Nat} {base avail : Nat} {s : State} {f : Format}
    (ht : Format.ofTag s.fmt = some f) (hf : f.isPalette = true) :
    decodeCommon max base avail s = .next (s.raise .unresolvedPaletteFormat) := by
  simp only [decodeCommon, ht, hf, if_true]

/-- A decode whose painting succeeds makes the image (R193). -/
theorem decodeCommon_of_paint_ok {max : Option Nat} {base avail : Nat} {s : State} {f : Format} {dst : Memory}
    (ht : Format.ofTag s.fmt = some f) (hf : f.isPalette = false)
    (hc : overCapacity max (tilePixels s.width s.height) = false)
    (hpaint : paint ⟨s.src, base, avail⟩ f (tilePixels s.width s.height) 0 s.dst = .ok dst) :
    decodeCommon max base avail s =
      .next (State.endCommand { s with dst := dst } .image (4 * tilePixels s.width s.height) s.width s.height) := by
  rw [decodeCommon_eq_paint ht hf hc, hpaint]

/-- A painting depends on the needed bytes of the slice alone (R60). -/
theorem paint_congr_src {src src' dst : Memory} {base avail n : Nat} {f : Format}
    (h : ∀ k, k < avail → k < f.need n → src'.read (base + k) = src.read (base + k)) :
    paint ⟨src', base, avail⟩ f n 0 dst = paint ⟨src, base, avail⟩ f n 0 dst :=
  paint_congr fun _ _ hj => pixelColor_congr h (by omega) _

/-- Where `DecodeCommon` answers a next state, another source with the same needed bytes gives that state but for SRC
itself (R60). -/
theorem decodeCommon_congr_src {max : Option Nat} {base avail : Nat} {s t : State} {src' : Memory} {f : Format}
    (ht : Format.ofTag s.fmt = some f)
    (hsrc : ∀ k, k < avail → k < f.need (tilePixels s.width s.height) →
      src'.read (base + k) = s.src.read (base + k))
    (h : decodeCommon max base avail s = .next t) :
    decodeCommon max base avail { s with src := src' } = .next { t with src := src' } := by
  obtain ⟨hnone, -⟩ | ⟨g, hg, hpal, rfl⟩ | ⟨g, dst, hg, hdirect, hcap, hpaint, rfl⟩ := decodeCommon_cases h
  · rw [ht] at hnone
    cases hnone
  · exact decodeCommon_of_isPalette hg hpal
  · obtain rfl : f = g := Option.some.inj (ht.symm.trans hg)
    exact decodeCommon_of_paint_ok hg hdirect hcap ((paint_congr_src hsrc).trans hpaint)

/-- With OFFSET at or past the end of SRC there is nothing to draw (R192). -/
theorem exec_decodeWindow_of_le {s : State} (h : s.srcLen ≤ s.offset) :
    exec .decodeWindow s = .next (s.endWithout .nothingToDraw) := if_pos h

/-- With OFFSET below SRC_LEN DECODE_WINDOW is a decode of the slice from OFFSET (R191). -/
theorem exec_decodeWindow_of_lt {s : State} (h : s.offset < s.srcLen) :
    exec .decodeWindow s = decodeCommon s.maxPixels s.offset (s.srcLen - s.offset) s := if_neg (Nat.not_le.mpr h)

/-- Settles O33: DECODE is a decode of the slice from byte 0. -/
theorem decodeReadsOnlyWhatItNeeds : Obligations.DecodeReadsOnlyWhatItNeeds := by
  unfold Obligations.DecodeReadsOnlyWhatItNeeds
  intro s t m f ht hsrc h
  refine decodeCommon_congr_src ht (fun k hk hneed => ?_) h
  rw [Nat.zero_add]
  exact hsrc k hk hneed

/-- Settles O34: DECODE_WINDOW draws nothing without looking at SRC, or decodes the slice from OFFSET. -/
theorem decodeWindowReadsOnlyWhatItNeeds : Obligations.DecodeWindowReadsOnlyWhatItNeeds := by
  unfold Obligations.DecodeWindowReadsOnlyWhatItNeeds
  intro s t m f ht hsrc h
  rcases Nat.lt_or_ge s.offset s.srcLen with hin | hpast
  · rw [exec_decodeWindow_of_lt hin] at h
    rw [exec_decodeWindow_of_lt (s := { s with src := m }) hin]
    exact decodeCommon_congr_src ht hsrc h
  · rw [exec_decodeWindow_of_le hpast] at h
    obtain rfl := Host.Outcome.next.inj h
    exact exec_decodeWindow_of_le hpast

/-! ## The bytes of a slice -/

/-- A read of one byte is that byte (R56). -/
theorem Slice.read_one (sl : Slice) (k : Nat) : sl.read k 1 = (sl.byte k).map (·.setWidth 32) := by
  simp [Slice.read]

/-- One more byte read is appended to the bytes read before it (R56). -/
theorem Slice.read_succ_eq_append {sl : Slice} {k n w : Nat} {v : BitVec w} {b : Byte}
    (hv : sl.read k n = some (v.setWidth 32)) (hb : sl.byte (k + n) = some b) :
    sl.read k (n + 1) = some ((v ++ b).setWidth 32) := by
  simp only [Slice.read, hv, hb, Option.bind_some, Option.map_some,
    BitVec.setWidth_append_eq_shiftLeft_setWidth_or]

/-- Settles O12, byte by byte: each read is the shorter one with the next byte appended. Two bytes are appended to 16
zeros, which an empty read also is. -/
theorem sliceReadBigEndian : Obligations.SliceReadBigEndian := by
  unfold Obligations.SliceReadBigEndian
  intro sl k b₀ b₁ b₂ b₃ h₀
  have read₁ : sl.read k 1 = some (b₀.setWidth 32) := by rw [Slice.read_one, h₀]; rfl
  refine ⟨read₁, fun h₁ => ⟨?_, fun h₂ h₃ => ?_⟩⟩
  · have read₀ : sl.read k 0 = some ((0 : BitVec 16).setWidth 32) := rfl
    have read₂ := Slice.read_succ_eq_append (Slice.read_succ_eq_append read₀ h₀) h₁
    rwa [BitVec.setWidth_eq] at read₂
  · have read₂ := Slice.read_succ_eq_append read₁ h₁
    have read₄ := Slice.read_succ_eq_append (Slice.read_succ_eq_append read₂ h₂) h₃
    rwa [BitVec.setWidth_eq] at read₄

/-- Settles O11: the two branches of SrcByte, and where the slice ends at the end of SRC, a used index is below it. -/
theorem sliceByteShortRead : Obligations.SliceByteShortRead := by
  unfold Obligations.SliceByteShortRead
  intro sl k
  refine ⟨sl.byte_of_lt, sl.byte_of_ge, fun len havail hk => ?_⟩
  omega

end Sys2Proof.Machine
end

section
/-! SUPPORT. Proofs about the formats' table of sizes. -/

namespace Sys2Proof.Machine

/-- Settles O7: the columns of natural numbers are computed, and bytes per pixel, a fraction of a byte for the formats
below 8 bits (R82), is worked out in the rationals. -/
theorem formatSizeTable : Obligations.FormatSizeTable := by
  unfold Obligations.FormatSizeTable
  constructor
  · decide
  · simp only [List.map_cons, List.map_nil, Format.bits]
    norm_num

end Sys2Proof.Machine
end

section
/-! SUPPORT. Proofs about direct-colour pixels: from the bytes of the slice to the colour in DST. -/

namespace Sys2Proof.Machine

/-! ## One pixel, by its raw value -/

/-- A step inside a decode command stores what the format makes of the fetched raw value, where the pixel's first byte
exists (R193, R194, R196). -/
theorem step_stores_unpackRaw {s : State} {r : Raster} {f : Format} {raw : Word} {c : Color}
    (h : s.raster = some r) (hf : r.fmt = f) (hk : f.firstByte r.pix < r.avail)
    (hraw : (r.slice s.src).fetch f r.pix = some raw) (hc : unpackRaw f raw = some c) :
    ∃ t, step s = .next t ∧ PixelDone r c s t := by
  subst hf
  refine ⟨s.pixelAt r c, ?_, s.pixelAt_done r c⟩
  simp only [step_pixel h, pixelStep, fetchPixel, hraw, Option.map_some, exec_decodePixel h hc, if_pos hk]

/-! ## RGBA16 and RGBA32 in the slice -/

theorem Format.firstByte_rgba16 (i : Nat) : Format.rgba16.firstByte i = 2 * i := by
  simp only [Format.firstByte, Format.bits]
  omega

theorem Format.firstByte_rgba32 (i : Nat) : Format.rgba32.firstByte i = 4 * i := by
  simp only [Format.firstByte, Format.bits]
  omega

/-- An RGBA16 pixel is two bytes, the first most significant (R56, R57). -/
theorem Slice.fetch_rgba16 {sl : Slice} {i : Nat} {b₀ b₁ : Byte} (h₀ : sl.byte (2 * i) = some b₀)
    (h₁ : sl.byte (2 * i + 1) = some b₁) : sl.fetch .rgba16 i = some ((b₀ ++ b₁).setWidth 32) := by
  have read₁ : sl.read (2 * i) 1 = some (b₀.setWidth 32) := by rw [Slice.read_one, h₀, Option.map_some]
  have read₂ := Slice.read_succ_eq_append read₁ h₁
  rwa [← Format.firstByte_rgba16] at read₂

/-- An RGBA32 pixel is four bytes, the first most significant (R56, R57). -/
theorem Slice.fetch_rgba32 {sl : Slice} {i : Nat} {b₀ b₁ b₂ b₃ : Byte} (h₀ : sl.byte (4 * i) = some b₀)
    (h₁ : sl.byte (4 * i + 1) = some b₁) (h₂ : sl.byte (4 * i + 2) = some b₂) (h₃ : sl.byte (4 * i + 3) = some b₃) :
    sl.fetch .rgba32 i = some (b₀ ++ b₁ ++ b₂ ++ b₃) := by
  obtain ⟨-, more⟩ := sliceReadBigEndian sl (4 * i) b₀ b₁ b₂ b₃ h₀
  have read₄ := (more h₁).2 h₂ h₃
  rwa [← Format.firstByte_rgba32] at read₄

/-! ## The colours of RGBA16 and RGBA32 -/

/-- LUT5 is the five bits followed by their top three (R150). -/
theorem lut5_eq_append (v : BitVec 5) : lut5 v = v ++ v.extractLsb' 2 3 := by
  revert v
  decide

/-- LUT5 of a five-bit field, by the places of its bits. -/
theorem lut5_extractLsb' {w : Nat} (v : BitVec w) (k : Nat) :
    lut5 (v.extractLsb' k 5) = v.extractLsb' k 5 ++ v.extractLsb' (k + 2) 3 := by
  have top : (v.extractLsb' k 5).extractLsb' 2 3 = v.extractLsb' (k + 2) 3 := by
    ext j hj
    have : 2 + j < 5 := by omega
    simp [this, Nat.add_assoc]
  rw [lut5_eq_append, top]

/-- LUT1 of one bit of a word is decided by that bit (R153). -/
theorem lut1_extractLsb' {w : Nat} (v : BitVec w) (k : Nat) :
    lut1 (v.extractLsb' k 1) = if v.getLsbD k then 0xFF else 0x00 := by
  have bit : v.extractLsb' k 1 = BitVec.ofBool (v.getLsbD k) := by
    ext j hj
    obtain rfl : j = 0 := by omega
    simp
  rw [bit]
  cases v.getLsbD k <;> rfl

/-- The fields of an RGBA16 pixel lie in its 16 bits, where the 5-5-5-1 unpacking of a colour has them (R155, R172). -/
theorem unpackRaw_rgba16 (v : BitVec 16) : unpackRaw .rgba16 (v.setWidth 32) = some (unpack5551 v) := by
  simp only [unpackRaw, unpack, decodePixel, unpack5551, BitVec.extractLsb'_setWidth_of_le, Nat.reduceAdd,
    Nat.reduceLeDiff]

/-- The colour of a 5-5-5-1 pixel by the places of its bits (R155). -/
theorem unpack5551_eq (v : BitVec 16) :
    unpack5551 v =
      ⟨v.extractLsb' 11 5 ++ v.extractLsb' 13 3, v.extractLsb' 6 5 ++ v.extractLsb' 8 3,
        v.extractLsb' 1 5 ++ v.extractLsb' 3 3, if v.getLsbD 0 then 0xFF else 0x00⟩ := by
  simp only [unpack5551, unpackRgba16, lut5_extractLsb', lut1_extractLsb']

/-- An RGBA32 pixel is its colour's word (R27, R156). -/
theorem unpackRaw_rgba32 (c : Color) : unpackRaw .rgba32 c.word = some c :=
  congrArg some c.ofWord_word

/-- Settles O22: the bytes are the fetched raw value, whose fields are the stored colour's channels. -/
theorem directColorPixelFromSource : Obligations.DirectColorPixelFromSource := by
  unfold Obligations.DirectColorPixelFromSource
  intro s r b₀ b₁ b₂ b₃ hr
  constructor
  · intro hf hk h₀ h₁
    refine step_stores_unpackRaw hr hf ?_ (Slice.fetch_rgba16 h₀ h₁) ?_
    · rwa [Format.firstByte_rgba16]
    · rw [unpackRaw_rgba16, unpack5551_eq]
  · intro hf hk h₀ h₁ h₂ h₃
    refine step_stores_unpackRaw hr hf ?_ (Slice.fetch_rgba32 h₀ h₁ h₂ h₃) (unpackRaw_rgba32 ⟨b₀, b₁, b₂, b₃⟩)
    rwa [Format.firstByte_rgba32]

end Sys2Proof.Machine
end

section
/-! SUPPORT. Proofs about the pad-or-truncate stage (R198). -/

namespace Sys2Proof.Machine

@[simp] theorem length_fit (l : List Byte) (n : Nat) : (fit l n).length = n := by
  simp [fit]

theorem getElem?_fit (l : List Byte) {n j : Nat} (h : j < n) : (fit l n)[j]? = some (l.getD j 0) := by
  simp [fit, h]

/-- A sequence of the target length needs no padding and loses nothing. -/
theorem fit_length_self (l : List Byte) : fit l l.length = l := by
  refine List.ext_getElem? fun j => ?_
  rcases Nat.lt_or_ge j l.length with hin | hpast
  · rw [getElem?_fit l hin, List.getD_eq_getElem l 0 hin, List.getElem?_eq_getElem hin]
  · rw [List.getElem?_eq_none hpast, List.getElem?_eq_none ((length_fit l l.length).trans_le hpast)]

/-- Settles O40: the first Fit already has the target length, so the second changes nothing. -/
theorem fitPadsOrTruncates : Obligations.FitPadsOrTruncates := by
  unfold Obligations.FitPadsOrTruncates
  intro l n
  refine ⟨length_fit l n, fun j hj => ?_, ?_, ?_⟩
  · rw [getElem?_fit l hj]
    split
    · rfl
    · next hpast => rw [List.getD_eq_default l 0 (Nat.not_lt.mp hpast)]
  · rintro rfl
    exact fit_length_self l
  · have twice := fit_length_self (fit l n)
    rwa [length_fit] at twice

end Sys2Proof.Machine
end

section
/-! SUPPORT. Proofs about which commands make an image, and that nothing of an earlier image is left in it (R200). -/

namespace Sys2Proof.Machine

/-! ## A painting does not depend on what it covers -/

/-- A stored pixel fixes all four of its bytes (R52). -/
theorem holdsPixel_agree {m m' : Memory} {c : Color} {k : Nat} (h : holdsPixel m (k / 4) c)
    (h' : holdsPixel m' (k / 4) c) : ∃ b, m.read k = some b ∧ m'.read k = some b := by
  obtain ⟨hr, hg, hb, ha⟩ := h
  obtain ⟨hr', hg', hb', ha'⟩ := h'
  have channel : k = 4 * (k / 4) ∨ k = 4 * (k / 4) + 1 ∨ k = 4 * (k / 4) + 2 ∨ k = 4 * (k / 4) + 3 := by omega
  obtain hk | hk | hk | hk := channel <;> rw [hk]
  · exact ⟨c.r, hr, hr'⟩
  · exact ⟨c.g, hg, hg'⟩
  · exact ⟨c.b, hb, hb'⟩
  · exact ⟨c.a, ha, ha'⟩

/-- What DST held before does not matter to a painting: over any other contents it stores the same bytes (R200). -/
theorem paint_fresh {sl : Slice} {f : Format} {n : Nat} {m dst : Memory} (h : paint sl f n 0 m = .ok dst)
    (m' : Memory) : ∃ dst', paint sl f n 0 m' = .ok dst' ∧
      ∀ k, k < 4 * n → ∃ b, dst.read k = some b ∧ dst'.read k = some b := by
  obtain ⟨pixels, -⟩ := paint_ok h
  cases hpaint : paint sl f n 0 m' with
  | error p =>
    obtain ⟨hfirst, hlast, hnone⟩ := paint_error hpaint
    obtain ⟨c, hc, -⟩ := pixels p hfirst hlast
    rw [hnone] at hc
    cases hc
  | ok dst' =>
    obtain ⟨pixels', -⟩ := paint_ok hpaint
    refine ⟨dst', rfl, fun k hk => ?_⟩
    obtain ⟨c, hc, hold⟩ := pixels (k / 4) (by omega) (by omega)
    obtain ⟨c', hc', hold'⟩ := pixels' (k / 4) (by omega) (by omega)
    obtain rfl : c = c' := Option.some.inj (hc.symm.trans hc')
    exact holdsPixel_agree hold hold'

/-! ## Where an image comes from -/

/-- A `DecodeCommon` that answers an image painted the whole tile (R193). -/
theorem decodeCommon_image {max : Option Nat} {base avail : Nat} {s t : State}
    (h : decodeCommon max base avail s = .next t) (himage : t.status = .image) :
    ∃ f dst, Format.ofTag s.fmt = some f ∧ f.isPalette = false ∧
      overCapacity max (tilePixels s.width s.height) = false ∧
      paint ⟨s.src, base, avail⟩ f (tilePixels s.width s.height) 0 s.dst = .ok dst ∧
      t = State.endCommand { s with dst := dst } .image (4 * tilePixels s.width s.height) s.width s.height := by
  obtain ⟨-, rfl⟩ | ⟨-, -, -, rfl⟩ | painted := decodeCommon_cases h
  · cases himage
  · cases himage
  · exact painted

/-- The decoder of CMD answers one of the seven commands, or none (R90, R92). -/
theorem decodeCommand_cases (c : Word) :
    decodeCommand c = some .decode ∨ decodeCommand c = some .decodeWindow ∨ decodeCommand c = some .colorFromU32 ∨
      decodeCommand c = some .colorFromU16 ∨ decodeCommand c = some .colorToU32 ∨ decodeCommand c = some .colorToU16 ∨
      decodeCommand c = some .colorRgb ∨ decodeCommand c = none := by
  unfold decodeCommand
  split <;> simp

/-- A value written to CMD that is no decode command always completes, and leaves no image (R92, R171 to R175). -/
theorem commandWrite_no_image {c : Word} (s : State) (hd : decodeCommand c ≠ some .decode)
    (hw : decodeCommand c ≠ some .decodeWindow) : ∃ t, commandWrite c s = .next t ∧ t.status ≠ .image := by
  obtain hc | hc | hc | hc | hc | hc | hc | hc := decodeCommand_cases c
  · exact absurd hc hd
  · exact absurd hc hw
  all_goals
    simp only [commandWrite, hc]
    exact ⟨_, rfl, Status.noConfusion⟩

/-- A command that answers an image is a decode of one slice, and the same one whatever DST holds (R190, R191). -/
theorem commandWrite_image {c : Word} {s t : State} (h : commandWrite c s = .next t) (himage : t.status = .image) :
    ∃ base avail, ∀ m : Memory,
      commandWrite c { s with dst := m } = decodeCommon s.maxPixels base avail { s with dst := m } := by
  by_cases hd : decodeCommand c = some .decode
  · exact ⟨0, s.srcLen, fun m => by simp only [commandWrite, hd]; rfl⟩
  by_cases hw : decodeCommand c = some .decodeWindow
  · simp only [commandWrite, hw] at h ⊢
    rcases Nat.lt_or_ge s.offset s.srcLen with hin | hpast
    · exact ⟨s.offset, s.srcLen - s.offset, fun m => exec_decodeWindow_of_lt (s := { s with dst := m }) hin⟩
    · rw [exec_decodeWindow_of_le hpast] at h
      obtain rfl := Host.Outcome.next.inj h
      cases himage
  · obtain ⟨t', ht', hno⟩ := commandWrite_no_image s hd hw
    obtain rfl : t' = t := Host.Outcome.next.inj (ht'.symm.trans h)
    exact absurd himage hno

/-- Settles O38: an image is a painting of the whole tile, whose bytes do not depend on the DST it is painted over. -/
theorem imageIsFresh : Obligations.ImageIsFresh := by
  unfold Obligations.ImageIsFresh
  intro s t c m h himage
  obtain ⟨base, avail, hdecode⟩ := commandWrite_image h himage
  obtain ⟨f, dst, htag, hdirect, hcap, hpaint, rfl⟩ := decodeCommon_image ((hdecode s.dst).symm.trans h) himage
  obtain ⟨dst', hpaint', hbytes⟩ := paint_fresh hpaint m
  have hlen := dstLen_toNat s.width s.height
  refine ⟨?_, _, (hdecode m).trans (decodeCommon_of_paint_ok htag hdirect hcap hpaint'), rfl, rfl, fun k hk => ?_⟩
  · exact hlen.trans (Nat.mul_comm _ _)
  · exact hbytes k (hk.trans_eq hlen)

end Sys2Proof.Machine
end

section
/-! SUPPORT. Proofs about the decoder and the encoder: the two tables, what decodes, and the fields of a raw pixel. -/

namespace Sys2Proof

/-! ## The tables of tags and of command words -/

/-- Settles O5, by the value of the tag. -/
theorem formatTagTable : Obligations.FormatTagTable := by
  unfold Obligations.FormatTagTable
  intro t
  simp only [Format.ofTag, ← BitVec.toNat_inj]
  split <;> simp_all

/-- Settles O6, by the value of the command word. -/
theorem commandWordTable : Obligations.CommandWordTable := by
  unfold Obligations.CommandWordTable
  intro c
  simp only [decodeCommand, ← BitVec.toNat_inj]
  split <;> simp_all

@[simp] theorem Format.ofTag_tag (f : Format) : Format.ofTag f.tag = some f := by cases f <;> rfl

/-- Only its own tag names a format (R81). -/
theorem Format.ofTag_eq_some_iff {t : Word} {f : Format} : Format.ofTag t = some f ↔ t = f.tag := by
  constructor
  · intro h
    rw [formatTagTable] at h
    split_ifs at h <;> (cases h; assumption)
  · rintro rfl
    exact Format.ofTag_tag f

/-- Exactly the tags of 10 or more name no format (R86). -/
theorem Format.ofTag_eq_none_iff {t : Word} : Format.ofTag t = none ↔ 10 ≤ t.toNat := by
  unfold Format.ofTag
  split <;> simp_all
  omega

/-- Exactly 0 and the values above 7 are no command word (R92). -/
theorem decodeCommand_eq_none_iff {c : Word} : decodeCommand c = none ↔ c.toNat = 0 ∨ 7 < c.toNat := by
  unfold decodeCommand
  split <;> simp_all
  omega

/-! ## What decodes -/

/-- A raw value within the width of its format decodes to its fields (R57, R83). -/
theorem decode_pixel {f : Format} {raw : Word} (h : raw.toNat < 2 ^ f.bits) :
    decode ⟨.fmt, f.tag, raw⟩ = .ok (decodePixel f raw) := by
  simp only [decode, Format.ofTag_tag, if_pos h]

/-- Everything that decodes: a command word alone, or a raw value that fits the format its tag names (R97). -/
theorem decode_eq_ok_iff {e : Encoded} {i : Instr} :
    decode e = .ok i ↔
      (e.selector = .cmd ∧ decodeCommand e.word = some i ∧ e.raw = 0) ∨
      (e.selector = .fmt ∧ ∃ f, Format.ofTag e.word = some f ∧ e.raw.toNat < 2 ^ f.bits ∧ decodePixel f e.raw = i) := by
  obtain ⟨selector, word, raw⟩ := e
  cases selector with
  | cmd =>
    cases hc : decodeCommand word with
    | none => simp [decode, hc]
    | some i' => by_cases hraw : raw = 0#32 <;> simp [decode, hc, hraw]
  | fmt =>
    cases hf : Format.ofTag word with
    | none => simp [decode, hf]
    | some f => by_cases hraw : raw.toNat < 2 ^ f.bits <;> simp [decode, hf, hraw]

/-- Settles O3: the decoder answers in just the two cases of `decode_eq_ok_iff`, and the command words are 1 to 7. -/
theorem decodesExactlyTheTable : Obligations.DecodesExactlyTheTable := by
  unfold Obligations.DecodesExactlyTheTable
  intro e
  have command : (∃ i, decodeCommand e.word = some i) ↔ 1 ≤ e.word.toNat ∧ e.word.toNat ≤ 7 := by
    rw [← Option.isSome_iff_exists, ← Option.ne_none_iff_isSome, ne_eq, decodeCommand_eq_none_iff]
    omega
  constructor
  · rintro ⟨i, hi⟩
    obtain ⟨hsel, hc, hraw⟩ | ⟨hsel, f, hf, hraw, -⟩ := decode_eq_ok_iff.mp hi
    · obtain ⟨hlow, hhigh⟩ := command.mp ⟨i, hc⟩
      exact .inl ⟨hsel, hlow, hhigh, hraw⟩
    · exact .inr ⟨hsel, f, hf, hraw⟩
  · rintro (⟨hsel, hlow, hhigh, hraw⟩ | ⟨hsel, f, hf, hraw⟩)
    · obtain ⟨i, hc⟩ := command.mpr ⟨hlow, hhigh⟩
      exact ⟨i, decode_eq_ok_iff.mpr (.inl ⟨hsel, hc, hraw⟩)⟩
    · exact ⟨_, decode_eq_ok_iff.mpr (.inr ⟨hsel, f, hf, hraw, rfl⟩)⟩

/-- Settles O4, by running the decoder. -/
theorem decodesWordsOfTheSpec : Obligations.DecodesWordsOfTheSpec :=
  ⟨rfl, rfl, rfl, rfl, rfl, rfl, rfl⟩

/-! ## From fields to bits and back -/

/-- A raw value within `n` bits is its low `n` bits, extended again. -/
theorem setWidth_extractLsb'_of_lt {raw : Word} {n : Nat} (hn : n ≤ 32) (h : raw.toNat < 2 ^ n) :
    (raw.extractLsb' 0 n).setWidth 32 = raw := by
  refine BitVec.eq_of_toNat_eq ?_
  rw [BitVec.toNat_setWidth_of_le hn, BitVec.extractLsb'_toNat, Nat.shiftRight_zero, Nat.mod_eq_of_lt h]

/-- The fields of a raw value, laid out again, are its low bits: no bit is in two fields, and none in no field (R83). -/
theorem encode_decodePixel_eq (f : Format) (raw : Word) :
    encode (decodePixel f raw) = ⟨.fmt, f.tag, (raw.extractLsb' 0 f.bits).setWidth 32⟩ := by
  cases f <;> simp only [decodePixel, encode]
  case ia4 | ia8 | ia16 =>
    rw [BitVec.extractLsb'_append_extractLsb'_eq_extractLsb' (by rfl)]
    rfl
  case rgba16 | rgba32 =>
    iterate 3 rw [BitVec.extractLsb'_append_extractLsb'_eq_extractLsb' (by rfl)]
    rfl
  all_goals rfl

/-- Settles O2: a command word is that command's, a tag is its format's, and a raw value that fits is its fields. -/
theorem encodeOfDecode : Obligations.EncodeOfDecode := by
  unfold Obligations.EncodeOfDecode
  rintro ⟨selector, word, raw⟩ i h
  obtain ⟨rfl, hc, rfl⟩ | ⟨rfl, f, hf, hraw, rfl⟩ := decode_eq_ok_iff.mp h
  · rw [commandWordTable] at hc
    split_ifs at hc <;> (cases hc; simp_all [encode])
  · obtain rfl := Format.ofTag_eq_some_iff.mp hf
    have hbits : f.bits ≤ 32 := by cases f <;> decide
    rw [encode_decodePixel_eq, setWidth_extractLsb'_of_lt hbits hraw]

/-- Settles O1: a command by its word; a pixel because its raw value fits its format and each field stands in it where
the decoder looks. -/
theorem decodeOfEncode : Obligations.DecodeOfEncode := by
  unfold Obligations.DecodeOfEncode
  intro i
  cases i
  case decode | decodeWindow | colorFromU32 | colorFromU16 | colorToU32 | colorToU16 | colorRgb => rfl
  all_goals
    refine decode_eq_ok_iff.mpr (.inr ⟨rfl, _, rfl, Laws.EncodeWf.fits _ (by decide), ?_⟩)
    simp (disch := decide) only [encode, decodePixel, BitVec.extractLsb'_setWidth_of_le, BitVec.extractLsb'_eq_self,
      BitVec.extractLsb'_append_eq_of_add_le, BitVec.extractLsb'_append_eq_of_le, Nat.reduceSub]

end Sys2Proof
end

section
/-! SUPPORT. Proofs about what a write to CMD does, by the number written. -/

namespace Sys2Proof.Machine

/-- A value that is no command word is reported (R92). -/
theorem commandWrite_illegal {c : Word} (h : c.toNat = 0 ∨ 7 < c.toNat) (s : State) :
    commandWrite c s = .next (s.raise .illegalCommand) := by
  simp only [commandWrite, decodeCommand_eq_none_iff.mpr h]

theorem commandWrite_decode {c : Word} (h : c.toNat = 1) (s : State) :
    commandWrite c s = decodeCommon s.maxPixels 0 s.srcLen s := by
  simp only [commandWrite, decodeCommand, h]
  rfl

theorem commandWrite_decodeWindow {c : Word} (h : c.toNat = 2) (s : State) :
    commandWrite c s = exec .decodeWindow s := by
  simp only [commandWrite, decodeCommand, h]

/-- A colour command completes with COLOR and PACKED, each a function of the two alone (R171 to R175, R177). -/
theorem commandWrite_color {c : Word} (h₃ : 3 ≤ c.toNat) (h₇ : c.toNat ≤ 7) :
    ∃ color packed : Word → Word → Word, ∀ s : State, commandWrite c s =
      .next (State.endWithout
        { s with color := color s.color s.packed, packed := packed s.color s.packed } .value) := by
  have hrun {i : Instr} (hi : decodeCommand c = some i) (s : State) : commandWrite c s = exec i s := by
    simp only [commandWrite, hi]
  interval_cases hc : c.toNat <;> simp only [decodeCommand, hc, Option.some.injEq, forall_eq'] at hrun
  · exact ⟨fun _ p => (Color.ofWord p).word, fun _ p => p, hrun⟩
  · exact ⟨fun _ p => (unpack5551 (p.extractLsb' 0 16)).word, fun _ p => p, hrun⟩
  · exact ⟨fun v _ => v, fun v _ => (Color.ofWord v).word, hrun⟩
  · exact ⟨fun v _ => v, fun v _ => (pack5551 (Color.ofWord v)).setWidth 32, hrun⟩
  · exact ⟨fun v _ => { Color.ofWord v with a := 0xFF : Color }.word, fun _ p => p, hrun⟩

/-- Everything a write to CMD can answer as a next state: IllegalCommand, a decode, nothing to draw, a decode of the
slice from OFFSET, or new colours (R90 to R92, R190, R191). -/
theorem commandWrite_cases {c : Word} {s t : State} (h : commandWrite c s = .next t) :
    ((c.toNat = 0 ∨ 7 < c.toNat) ∧ t = s.raise .illegalCommand) ∨
    (c.toNat = 1 ∧ decodeCommon s.maxPixels 0 s.srcLen s = .next t) ∨
    (c.toNat = 2 ∧ s.srcLen ≤ s.offset ∧ t = s.endWithout .nothingToDraw) ∨
    (c.toNat = 2 ∧ s.offset < s.srcLen ∧ decodeCommon s.maxPixels s.offset (s.srcLen - s.offset) s = .next t) ∨
    (3 ≤ c.toNat ∧ c.toNat ≤ 7 ∧
      ∃ color packed, t = State.endWithout { s with color := color, packed := packed } .value) := by
  have number : (c.toNat = 0 ∨ 7 < c.toNat) ∨ c.toNat = 1 ∨ c.toNat = 2 ∨ (3 ≤ c.toNat ∧ c.toNat ≤ 7) := by omega
  obtain hc | hc | hc | ⟨h₃, h₇⟩ := number
  · rw [commandWrite_illegal hc, Host.Outcome.next.injEq] at h
    exact .inl ⟨hc, h.symm⟩
  · rw [commandWrite_decode hc] at h
    exact .inr (.inl ⟨hc, h⟩)
  · rw [commandWrite_decodeWindow hc] at h
    rcases Nat.lt_or_ge s.offset s.srcLen with hin | hpast
    · rw [exec_decodeWindow_of_lt hin] at h
      exact .inr (.inr (.inr (.inl ⟨hc, hin, h⟩)))
    · rw [exec_decodeWindow_of_le hpast, Host.Outcome.next.injEq] at h
      exact .inr (.inr (.inl ⟨hc, hpast, h.symm⟩))
  · obtain ⟨color, packed, hcolor⟩ := commandWrite_color h₃ h₇
    rw [hcolor, Host.Outcome.next.injEq] at h
    exact .inr (.inr (.inr (.inr ⟨h₃, h₇, _, _, h.symm⟩)))

/-- Settles O54: the decoder of the selector CMD is the decoder of a written command word. -/
theorem stepRunsTheCommand : Obligations.StepRunsTheCommand := by
  unfold Obligations.StepRunsTheCommand
  intro s c i rest hr hh hi
  obtain ⟨-, hc, -⟩ | ⟨hfmt, -⟩ := decode_eq_ok_iff.mp hi
  · rw [step_command hr hh c.isLt, BitVec.ofNat_toNat, BitVec.setWidth_eq]
    simp only [commandWrite, hc]
  · cases hfmt

/-- Between commands a fault is STATUS and three results of 0, and nothing else: there is no raster position to lose
(R226). -/
theorem State.raise_of_idle {s : State} (hr : s.raster = none) (e : Cause) :
    s.raise e = { s with status := .fault e, dstLen := 0, outWidth := 0, outHeight := 0 } := by
  cases s
  cases hr
  rfl

/-- Settles O52: such a value is no command word. -/
theorem illegalCommandIsReported : Obligations.IllegalCommandIsReported := by
  unfold Obligations.IllegalCommandIsReported
  intro s v rest hr hh hv hcode
  have hword : (BitVec.ofNat 32 v).toNat = v := Nat.mod_eq_of_lt hv
  rw [step_command hr hh hv, commandWrite_illegal (by rwa [hword])]
  exact congrArg _ (State.raise_of_idle (s := { s with host := rest }) hr _)

/-- The only fault a `DecodeCommon` ends in is one it raises on the state it found (R226). -/
theorem decodeCommon_fault {max : Option Nat} {base avail : Nat} {s t : State} {e : Cause}
    (h : decodeCommon max base avail s = .next t) (he : t.status = .fault e) : t = s.raise e := by
  obtain ⟨-, rfl⟩ | ⟨f, -, -, rfl⟩ | ⟨f, dst, -, -, -, -, rfl⟩ := decodeCommon_cases h
  · cases he; rfl
  · cases he; rfl
  · cases he

/-- Settles O53: each answer that is a fault is raised on the state before. -/
theorem faultChangesNothingElse : Obligations.FaultChangesNothingElse := by
  unfold Obligations.FaultChangesNothingElse
  intro s t c e hr h he
  rw [← State.raise_of_idle hr]
  obtain ⟨-, rfl⟩ | ⟨-, h⟩ | ⟨-, -, rfl⟩ | ⟨-, -, h⟩ | ⟨-, -, color, packed, rfl⟩ := commandWrite_cases h
  · cases he; rfl
  · exact decodeCommon_fault h he
  · cases he
  · exact decodeCommon_fault h he
  · cases he

end Sys2Proof.Machine
end

section
/-! SUPPORT. Proofs about the invariant of the block: reset meets it and every step keeps it. -/

namespace Sys2Proof.Machine

/-- Settles O58: everything after reset is 0, empty or absent. -/
theorem resetMeetsTheInvariant : Obligations.ResetMeetsTheInvariant := by
  unfold Obligations.ResetMeetsTheInvariant
  have onPlatform (addrW : Nat) (maxPixels : Option Nat) (h : 1 ≤ addrW) : (State.resetOn addrW maxPixels).Inv :=
    { addrWPos := h
      offsetBits := Nat.two_pow_pos addrW
      srcLenBits := Nat.two_pow_pos addrW
      srcWf := .nil
      dstWf := .nil
      srcBound := by simp [State.resetOn]
      dstBound := by simp [State.resetOn]
      image := by simp [State.resetOn]
      noImage := by simp [State.resetOn]
      raster := by simp [State.resetOn]
      capacity := by simp [State.resetOn] }
  exact ⟨onPlatform, onPlatform _ _ (by decide)⟩

/-! ## The end of a command -/

/-- A command that ends without an image keeps the invariant. -/
theorem State.Inv.endWithout {s : State} (h : s.Inv) {st : Status} (hst : st ≠ .image) : (s.endWithout st).Inv where
  __ := h
  image himage := absurd himage hst
  noImage _ := ⟨rfl, rfl, rfl⟩
  raster r hr := by cases hr
  capacity m _ := ⟨fun himage => absurd himage hst, fun r hr => by cases hr⟩

/-- COLOR and PACKED are free in the invariant. -/
theorem State.Inv.colors {s : State} (h : s.Inv) (color packed : Word) :
    State.Inv { s with color := color, packed := packed } where
  __ := h

/-- A byte of a stored pixel is there. -/
theorem holdsPixel_isSome {m : Memory} {c : Color} {k : Nat} (h : holdsPixel m (k / 4) c) : (m.read k).isSome := by
  obtain ⟨b, hb, -⟩ := holdsPixel_agree h h
  simp [hb]

/-- An image that DST holds whole, within the capacity of the platform, keeps the invariant (R200, R266). -/
theorem State.Inv.endImage {s : State} (h : s.Inv) {dst : Memory} {width height : Word} (hwf : dst.wf)
    (hbound : ∀ c ∈ dst, c.1 < 2 ^ Config.dstW) (hread : ∀ k < 4 * tilePixels width height, (dst.read k).isSome)
    (hcap : ∀ m, s.maxPixels = some m → tilePixels width height ≤ m) :
    (State.endCommand { s with dst := dst } .image (4 * tilePixels width height) width height).Inv where
  __ := h
  dstWf := hwf
  dstBound := hbound
  image _ := ⟨dstLen_toNat width height, fun k hk => hread k (hk.trans_eq (dstLen_toNat width height))⟩
  noImage hno := absurd rfl hno
  raster r hr := by cases hr
  capacity m hm := ⟨fun _ => hcap m hm, fun r hr => by cases hr⟩

/-- A decode that painted its whole tile keeps the invariant (R193). -/
theorem State.Inv.painted {s : State} (h : s.Inv) {sl : Slice} {f : Format} {dst : Memory}
    (hcap : overCapacity s.maxPixels (tilePixels s.width s.height) = false)
    (hpaint : paint sl f (tilePixels s.width s.height) 0 s.dst = .ok dst) :
    (State.endCommand { s with dst := dst } .image (4 * tilePixels s.width s.height) s.width s.height).Inv := by
  have hsize := tilePixels_lt s.width s.height
  obtain ⟨hwf, hbound⟩ := paint_wf (b := 2 ^ 66) hpaint h.dstWf h.dstBound (by omega)
  obtain ⟨pixels, -⟩ := paint_ok hpaint
  refine h.endImage hwf hbound (fun k hk => ?_) ((overCapacity_eq_false_iff _ _).mp hcap)
  obtain ⟨c, -, hold⟩ := pixels (k / 4) (by omega) (by omega)
  exact holdsPixel_isSome hold

/-- A decode command keeps the invariant (R193). -/
theorem State.Inv.decodeCommon {s t : State} (hs : s.Inv) {base avail : Nat}
    (h : decodeCommon s.maxPixels base avail s = .next t) :
    t.Inv ∧ t.addrW = s.addrW ∧ t.maxPixels = s.maxPixels := by
  obtain ⟨-, rfl⟩ | ⟨f, -, -, rfl⟩ | ⟨f, dst, -, -, hcap, hpaint, rfl⟩ := decodeCommon_cases h
  · exact ⟨hs.endWithout Status.noConfusion, rfl, rfl⟩
  · exact ⟨hs.endWithout Status.noConfusion, rfl, rfl⟩
  · exact ⟨hs.painted hcap hpaint, rfl, rfl⟩

/-- A write to CMD keeps the invariant. -/
theorem State.Inv.commandWrite {s t : State} (hs : s.Inv) {c : Word} (h : commandWrite c s = .next t) :
    t.Inv ∧ t.addrW = s.addrW ∧ t.maxPixels = s.maxPixels := by
  obtain ⟨-, rfl⟩ | ⟨-, h⟩ | ⟨-, -, rfl⟩ | ⟨-, -, h⟩ | ⟨-, -, color, packed, rfl⟩ := commandWrite_cases h
  · exact ⟨hs.endWithout Status.noConfusion, rfl, rfl⟩
  · exact hs.decodeCommon h
  · exact ⟨hs.endWithout Status.noConfusion, rfl, rfl⟩
  · exact hs.decodeCommon h
  · exact ⟨(hs.colors color packed).endWithout Status.noConfusion, rfl, rfl⟩

/-! ## The host's accesses -/

/-- A host write to a register keeps the invariant: OFFSET and SRC_LEN take ADDR_W bits of the value (R23, R26). -/
theorem State.Inv.writeReg {s : State} (h : s.Inv) (r : Reg) (v : Nat) : (s.writeReg r v).Inv := by
  have hmod : v % 2 ^ s.addrW < 2 ^ s.addrW := Nat.mod_lt _ (Nat.two_pow_pos _)
  cases r with
  | offset => exact { h with offsetBits := hmod }
  | srcLen => exact { h with srcLenBits := hmod }
  | cmd | status | dstLen | outWidth | outHeight => exact h
  | fmt | width | height | color | packed => exact { h with }

/-- Reset keeps the invariant, whatever the memories hold (R260). -/
theorem State.Inv.applyReset {s : State} (h : s.Inv) : s.applyReset.Inv where
  __ := h
  offsetBits := Nat.two_pow_pos _
  srcLenBits := Nat.two_pow_pos _
  image himage := by cases himage
  noImage _ := ⟨rfl, rfl, rfl⟩
  raster r hr := by cases hr
  capacity m _ := ⟨fun himage => (by cases himage), fun r hr => (by cases hr)⟩

/-- Every answer to a register write is the write itself, or a command's (R23, R34). -/
theorem registerWrite_cases {n v : Nat} {r : Reg} {s t : State} (h : registerWrite n r v s = .next t) :
    v < 2 ^ r.bits s.addrW ∧
      ((r = .cmd ∧ commandWrite (BitVec.ofNat 32 v) s = .next t) ∨ (r ≠ .cmd ∧ t = s.writeReg r v)) := by
  rcases Nat.lt_or_ge v (2 ^ r.bits s.addrW) with hv | hv
  · refine ⟨hv, ?_⟩
    by_cases hr : r = .cmd
    · subst hr
      rw [registerWrite_cmd n s hv] at h
      exact .inl ⟨rfl, h⟩
    · rw [registerWrite_data n s hr hv, Host.Outcome.next.injEq] at h
      exact .inr ⟨hr, h.symm⟩
  · rw [registerWrite_wide n s hv] at h
    cases h

/-- An access of the host keeps the invariant. -/
theorem State.Inv.hostAccess {s t : State} (hs : s.Inv) {op : HostOp} (h : hostAccess op s = .next t) :
    t.Inv ∧ t.addrW = s.addrW ∧ t.maxPixels = s.maxPixels := by
  cases op with
  | wr n v =>
    cases hn : Reg.ofNumber n with
    | none =>
      simp only [Machine.hostAccess, hn, Host.Outcome.next.injEq] at h
      exact h ▸ ⟨hs, rfl, rfl⟩
    | some r =>
      rw [hostAccess_wr hn] at h
      obtain ⟨-, ⟨-, h⟩ | ⟨-, rfl⟩⟩ := registerWrite_cases h
      · exact hs.commandWrite h
      · exact ⟨hs.writeReg r v, State.writeReg_addrW .., State.writeReg_maxPixels ..⟩
  | rd n => cases h; exact ⟨{ hs with }, rfl, rfl⟩
  | srcLoad bytes =>
    simp only [Machine.hostAccess] at h
    split at h <;> cases h
    next hlen =>
    exact ⟨{ hs with srcWf := Memory.wf_ofBytes bytes, srcBound := Memory.bound_ofBytes hlen }, rfl, rfl⟩
  | srcPoke k b =>
    simp only [Machine.hostAccess] at h
    split at h <;> cases h
    next hk =>
    exact ⟨{ hs with srcWf := Memory.wf_write hs.srcWf k b, srcBound := Memory.bound_write hs.srcBound hk }, rfl, rfl⟩
  | rdDst k =>
    simp only [Machine.hostAccess] at h
    split at h <;> cases h
    exact ⟨{ hs with }, rfl, rfl⟩
  | reset => cases h; exact ⟨hs.applyReset, rfl, rfl⟩

/-! ## One pixel -/

/-- The next position stands at a pixel of the tile again, in row-major order, while one is left (R29, R196). -/
theorem Raster.Inv.next {addrW : Nat} {r : Raster} (h : r.Inv addrW) (hmore : r.pix + 1 < r.npix) :
    r.next.Inv addrW := by
  have hcol := h.column
  have horder := h.order
  unfold Raster.next
  split
  · next hx =>
    have hpix : r.pix + 1 = (r.y + 1) * r.w.toNat := by rw [horder, Nat.add_mul, ← hx]; omega
    have hrow : r.y + 1 < r.h.toNat := by
      rw [hpix, Raster.npix, tilePixels, Nat.mul_comm r.w.toNat] at hmore
      exact Nat.lt_of_mul_lt_mul_right hmore
    exact { h with inTile := hmore, column := by dsimp only; omega, row := hrow, order := hpix }
  · next hx =>
    exact { h with inTile := hmore, column := by dsimp only; omega, order := by dsimp only; omega }

/-- Storing a word leaves every byte that was there. -/
theorem Memory.isSome_read_writeWord {m : Memory} {k : Nat} (h : (m.read k).isSome) (a : Nat) (v : Word) :
    ((m.writeWord a v).read k).isSome := by
  rw [Memory.read_writeWord]
  split_ifs <;> simp [h]

/-- With every earlier pixel stored, storing pixel PIX leaves every byte up to its last there. -/
theorem isSome_read_pixelAt {s : State} {r : Raster} (h : ∀ k < 4 * r.pix, (s.dst.read k).isSome) (c : Color) :
    ∀ k < 4 * (r.pix + 1), ((s.pixelAt r c).dst.read k).isSome := by
  intro k hk
  rcases Nat.lt_or_ge k (4 * r.pix) with hlt | hge
  · rw [State.pixelAt_dst]
    exact Memory.isSome_read_writeWord (h k hlt) _ _
  · have hpix : k / 4 = r.pix := by omega
    exact holdsPixel_isSome (hpix ▸ (s.pixelAt_done r c).stored)

/-- Storing a word within the indices of DST keeps the invariant (R51). -/
theorem State.Inv.writeWord {s : State} (h : s.Inv) {a : Nat} (ha : a + 4 ≤ 2 ^ Config.dstW) (v : Word) :
    State.Inv { s with dst := s.dst.writeWord a v } where
  __ := h
  dstWf := Memory.wf_writeWord h.dstWf a v
  dstBound := Memory.bound_writeWord h.dstBound ha
  image himage := ⟨(h.image himage).1, fun k hk => Memory.isSome_read_writeWord ((h.image himage).2 k hk) a v⟩
  raster r hr := ⟨(h.raster r hr).1, fun k hk => Memory.isSome_read_writeWord ((h.raster r hr).2 k hk) a v⟩

/-- Standing at a pixel of a tile, with every earlier pixel stored, keeps the invariant (R29). -/
theorem State.Inv.stand {s : State} (h : s.Inv) {r : Raster} (hr : r.Inv s.addrW)
    (hpast : ∀ k < 4 * r.pix, (s.dst.read k).isSome) (hcap : ∀ m, s.maxPixels = some m → r.npix ≤ m) :
    State.Inv { s with raster := some r } where
  __ := h
  raster := by
    rintro _ ⟨⟩
    exact ⟨hr, hpast⟩
  capacity m hm := ⟨(h.capacity m hm).1, by
    rintro _ ⟨⟩
    exact hcap m hm⟩

/-- A stored pixel keeps the invariant, before the end of the tile and at it (R29, R196, R200). -/
theorem State.Inv.pixelAt {s : State} (h : s.Inv) {r : Raster} (hr : s.raster = some r) (c : Color) :
    (s.pixelAt r c).Inv := by
  obtain ⟨hraster, hpast⟩ := h.raster r hr
  have hsize : r.npix < 2 ^ 64 := tilePixels_lt r.w r.h
  have hin := hraster.inTile
  have hstored := h.writeWord (a := 4 * r.pix) (show 4 * r.pix + 4 ≤ 2 ^ 66 by omega) c.word
  have hread := isSome_read_pixelAt hpast c
  have hcap : ∀ m, s.maxPixels = some m → r.npix ≤ m := fun m hm => (h.capacity m hm).2 r hr
  rw [State.pixelAt_dst] at hread
  rcases Nat.lt_or_ge (r.pix + 1) r.npix with hmore | hlast
  · rw [State.pixelAt, State.atPixel_of_lt _ (by simpa using hmore)]
    exact hstored.stand (hraster.next hmore) (by simpa using hread) (by simpa using hcap)
  · rw [State.pixelAt, State.atPixel_of_ge _ (by simpa using hlast)]
    have himage := h.endImage (width := r.w) (height := r.h) hstored.dstWf hstored.dstBound
      (fun k (hk : k < 4 * r.npix) => hread k (by omega)) hcap
    simpa [State.finishImage, Raster.npix] using himage

/-! ## Every step -/

/-- Settles O59: inside a decode the step stores a pixel, between commands it does one access of the host. -/
theorem stepKeepsTheInvariant : Obligations.StepKeepsTheInvariant := by
  unfold Obligations.StepKeepsTheInvariant
  intro s t hs h
  cases hr : s.raster with
  | some r =>
    obtain ⟨c, -, rfl⟩ := (step_eq_next_iff_pixelAt hr (hs.raster r hr).1.direct).mp h
    obtain ⟨keeps, -⟩ := s.pixelAt_done r c
    exact ⟨hs.pixelAt hr c, keeps.addrW, keeps.maxPixels⟩
  | none =>
    cases hh : s.host with
    | nil =>
      rw [step_idle hr hh, Host.Outcome.next.injEq] at h
      exact h ▸ ⟨hs, rfl, rfl⟩
    | cons op rest =>
      rw [step_access hr hh] at h
      exact State.Inv.hostAccess (s := { s with host := rest }) { hs with } h

/-- Settles O60: a decode in progress stands inside its tile, which has fewer than 2^64 pixels of at most 32 bits. -/
theorem countersCannotWrap : Obligations.CountersCannotWrap := by
  unfold Obligations.CountersCannotWrap
  intro s r hs hr
  obtain ⟨hraster, -⟩ := hs.raster r hr
  have hsize : r.npix < 2 ^ 64 := tilePixels_lt r.w r.h
  have hin := hraster.inTile
  have hx := hraster.column.trans r.w.isLt
  have hy := hraster.row.trans r.h.isLt
  refine ⟨hx, hy, by omega, by omega, ?_⟩
  obtain hbits | hbits | hbits | hbits | hbits := r.fmt.bits_cases <;>
    simp only [Format.bytes, hbits] <;> omega

end Sys2Proof.Machine
end

section
/-! SUPPORT. Proofs about the expansion tables, and about a pixel in the source: where it stands, how much of it the slice
holds, and what colour it has under either reading of SHORT_FILL. -/

namespace Sys2Proof

/-! ## The first byte of a pixel, and how many of its bytes there are -/

theorem Format.firstByte_of_bits_one {f : Format} (h : f.bits = 1) (i : Nat) : f.firstByte i = i / 8 := by
  simp only [Format.firstByte, h, Nat.mul_one]

theorem Format.firstByte_of_bits_four {f : Format} (h : f.bits = 4) (i : Nat) : f.firstByte i = i / 2 := by
  simp only [Format.firstByte, h]
  omega

theorem Format.firstByte_of_bits_eight {f : Format} (h : f.bits = 8) (i : Nat) : f.firstByte i = i := by
  simp only [Format.firstByte, h]
  omega

theorem Format.firstByte_of_bits_sixteen {f : Format} (h : f.bits = 16) (i : Nat) : f.firstByte i = 2 * i := by
  simp only [Format.firstByte, h]
  omega

theorem Format.firstByte_of_bits_thirtyTwo {f : Format} (h : f.bits = 32) (i : Nat) : f.firstByte i = 4 * i := by
  simp only [Format.firstByte, h]
  omega

/-- One byte holds a whole number of pixels of 8 bits or fewer, so as many further pixels are one byte on, at the same
place in it (R57). -/
theorem Format.mul_bits_slide {f : Format} (h : f.bits ≤ 8) (i : Nat) : (i + 8 / f.bits) * f.bits = i * f.bits + 8 := by
  have hwhole : 8 / f.bits * f.bits = 8 := by revert h; cases f <;> decide
  rw [Nat.add_mul, hwhole]

theorem Format.presence_present_iff (f : Format) (avail i : Nat) :
    f.presence avail i = .present ↔ f.firstByte i + f.bytes ≤ avail := by
  unfold Format.presence
  split_ifs with hall hnone <;> simp [hall]

theorem Format.presence_partly_iff (f : Format) (avail i : Nat) :
    f.presence avail i = .partlyPresent ↔ f.firstByte i < avail ∧ avail < f.firstByte i + f.bytes := by
  have hpos := f.bytes_pos
  unfold Format.presence
  split_ifs with hall hnone <;> simp <;> omega

theorem Format.firstByte_mono (f : Format) {i j : Nat} (h : i ≤ j) : f.firstByte i ≤ f.firstByte j :=
  Nat.div_le_div_right (Nat.mul_le_mul_right _ h)

end Sys2Proof

namespace Sys2Proof.Machine

/-! ## The expansion tables -/

/-- Settles O8, by computing each table. -/
theorem expansionTables : Obligations.ExpansionTables := by
  unfold Obligations.ExpansionTables
  decide

/-- LUT5 holds its argument in its top bits (R154). -/
theorem extractLsb'_lut5 (v : BitVec 5) : (lut5 v).extractLsb' 3 5 = v := by
  revert v
  decide

/-- A byte survives narrowing to 5 bits and widening again exactly when it is an entry of LUT5 (R154). -/
theorem lut5_extractLsb'_eq_self_iff (c : Byte) : lut5 (c.extractLsb' 3 5) = c ↔ ∃ v, lut5 v = c := by
  constructor
  · exact fun h => ⟨_, h⟩
  · rintro ⟨v, rfl⟩
    rw [extractLsb'_lut5]

/-- Settles O9: the ends, the order and the top bits over every argument, and what survives from LUT5's top bits. -/
theorem expansionProperties : Obligations.ExpansionProperties := by
  unfold Obligations.ExpansionProperties
  refine ⟨by decide, by decide, ⟨extractLsb'_lut5, by decide⟩, lut5_extractLsb'_eq_self_iff⟩

/-- LUT4 is the nibble twice (R152). -/
theorem lut4_eq_append (n : BitVec 4) : lut4 n = n ++ n := by
  revert n
  decide

/-- LUT3 is the three bits twice, then their top two (R151). -/
theorem lut3_eq_append (t : BitVec 3) : lut3 t = t ++ t ++ t.extractLsb' 1 2 := by
  revert t
  decide

/-- SHL4 is the nibble and four zeros (R84). -/
theorem shl4_eq_append (n : BitVec 4) : shl4 n = n ++ (0 : BitVec 4) := by
  revert n
  decide

/-- An opaque grey as the 32-bit word stored (R113). -/
theorem word_grey_opaque (v : Byte) :
    (grey v 0xFF).word =
      (v.setWidth 32 <<< 24) ||| (v.setWidth 32 <<< 16) ||| (v.setWidth 32 <<< 8) ||| 0xFF := by
  have bytes : (grey v 0xFF).word = (v ++ v ++ v ++ (0xFF : Byte)).setWidth 32 := (BitVec.setWidth_eq _).symm
  rw [bytes]
  iterate 3 rw [BitVec.setWidth_append_eq_shiftLeft_setWidth_or]
  simp only [BitVec.shiftLeft_or_distrib, ← BitVec.shiftLeft_add, Nat.reduceAdd]
  rfl

/-- Settles O10: the three formats give an opaque grey, I4's nibble with four zeros below it. -/
theorem intensityPixelWord : Obligations.IntensityPixelWord := by
  unfold Obligations.IntensityPixelWord
  refine ⟨fun i => word_grey_opaque _, fun i => ?_, fun i => word_grey_opaque i⟩
  rw [unpackI4, shl4_eq_append]
  exact word_grey_opaque _

/-! ## Where a pixel stands -/

/-- The bits a shift and a mask leave of a byte are a field of it. -/
theorem ushiftRight_and_mask (b : Byte) (n : Nat) {k : Nat} (hk : k < 8) :
    ((b.setWidth 32 : Word) >>> n) &&& BitVec.ofNat 32 (2 ^ k - 1) = (b.extractLsb' n k).setWidth 32 := by
  have hpow : 2 ^ k ≤ 2 ^ 8 := Nat.pow_le_pow_right (by decide) hk.le
  have hb : b.toNat < 2 ^ 32 := b.isLt.trans (by decide)
  refine BitVec.eq_of_toNat_eq ?_
  rw [BitVec.toNat_and, BitVec.toNat_ushiftRight, BitVec.toNat_setWidth, Nat.mod_eq_of_lt hb, BitVec.toNat_ofNat,
    Nat.mod_eq_of_lt (by omega), Nat.and_two_pow_sub_one_eq_mod, BitVec.toNat_setWidth_of_le (by omega),
    BitVec.extractLsb'_toNat]

/-- A pixel shorter than a byte is a field of its byte, the first pixel in the most significant bits (R57). -/
theorem Slice.fetch_of_bits_lt_eight (sl : Slice) {f : Format} (h : f.bits < 8) (i : Nat) :
    sl.fetch f i = (sl.byte (f.firstByte i)).map fun b =>
      (b.extractLsb' (8 - f.bits - i * f.bits % 8) f.bits).setWidth 32 := by
  simp only [Slice.fetch, if_pos h, ushiftRight_and_mask _ _ h]

/-- A pixel of a byte or more is a read of its bytes (R57). -/
theorem Slice.fetch_of_eight_le_bits (sl : Slice) {f : Format} (h : 8 ≤ f.bits) (i : Nat) :
    sl.fetch f i = sl.read (f.firstByte i) (f.bits / 8) := if_neg (Nat.not_lt.mpr h)

/-- A field of one bit is that bit. -/
theorem extractLsb'_one {w : Nat} (v : BitVec w) (k : Nat) : v.extractLsb' k 1 = BitVec.ofBool (v.getLsbD k) := by
  ext j hj
  obtain rfl : j = 0 := by omega
  simp

/-- An I1 pixel is one bit of its byte, from the most significant down (R57). -/
theorem Slice.fetch_i1 (sl : Slice) (i : Nat) :
    sl.fetch .i1 i = (sl.byte (i / 8)).map fun b => (b.extractLsb' (7 - i % 8) 1).setWidth 32 := by
  simp only [sl.fetch_of_bits_lt_eight (f := .i1) (by decide), Format.firstByte_of_bits_one (f := .i1) rfl,
    Format.bits, Nat.mul_one, Nat.reduceSub]

/-- A 4-bit pixel is the high nibble of its byte at an even index and the low one at an odd (R57). -/
theorem Slice.fetch_of_bits_four (sl : Slice) {f : Format} (h : f.bits = 4) (i : Nat) :
    sl.fetch f i = (sl.byte (i / 2)).map fun b =>
      (if i % 2 = 0 then b.extractLsb' 4 4 else b.extractLsb' 0 4).setWidth 32 := by
  rw [sl.fetch_of_bits_lt_eight (by omega), Format.firstByte_of_bits_four h, h]
  rcases Nat.mod_two_eq_zero_or_one i with heven | hodd
  · have hplace : i * 4 % 8 = 0 := by omega
    simp only [hplace, heven, if_true, Nat.reduceSub]
  · have hplace : i * 4 % 8 = 4 := by omega
    simp only [hplace, hodd, one_ne_zero, if_false, Nat.reduceSub]

/-- Settles O13: a field of one byte for the formats below 8 bits, a read of whole bytes for the rest. -/
theorem fetchPlacesPixels : Obligations.FetchPlacesPixels := by
  unfold Obligations.FetchPlacesPixels
  intro sl i
  refine ⟨?_, fun f hf => sl.fetch_of_bits_four hf i, fun f hf => ?_, fun f hf => ?_, fun f hf => ?_⟩
  · simp only [sl.fetch_i1, extractLsb'_one]
  · rw [sl.fetch_of_eight_le_bits (by omega), Format.firstByte_of_bits_eight hf, hf]
  · rw [sl.fetch_of_eight_le_bits (by omega), Format.firstByte_of_bits_sixteen hf, hf]
  · rw [sl.fetch_of_eight_le_bits (by omega), Format.firstByte_of_bits_thirtyTwo hf, hf]

/-- `n` bytes assembled make a value of `8 * n` bits (R56). -/
theorem Slice.read_lt {sl : Slice} {k n : Nat} {v : Word} (h : sl.read k n = some v) : v.toNat < 2 ^ (8 * n) := by
  induction n generalizing v with
  | zero => cases h; decide
  | succ n ih =>
    simp only [Slice.read, Option.bind_eq_some_iff, Option.map_eq_some_iff] at h
    obtain ⟨u, hu, b, -, rfl⟩ := h
    have hpow : 2 ^ (8 * (n + 1)) = 2 ^ (8 * n) * 2 ^ 8 := Nat.pow_add 2 (8 * n) 8
    have hhigh : (u <<< 8).toNat < 2 ^ (8 * (n + 1)) := by
      rw [hpow, BitVec.toNat_shiftLeft, Nat.shiftLeft_eq]
      exact (Nat.mod_le _ _).trans_lt (Nat.mul_lt_mul_of_pos_right (ih hu) (by decide))
    have hlow : (b.setWidth 32 : Word).toNat < 2 ^ (8 * (n + 1)) := by
      rw [BitVec.toNat_setWidth_of_le (by decide)]
      exact b.isLt.trans_le (Nat.pow_le_pow_right (by decide) (by omega))
    rw [BitVec.toNat_or]
    exact Nat.or_lt_two_pow hhigh hlow

/-- A fetched raw value has no bit above the width of its format (R57, R85). -/
theorem Slice.fetch_lt {sl : Slice} {f : Format} {i : Nat} {raw : Word} (h : sl.fetch f i = some raw) :
    raw.toNat < 2 ^ f.bits := by
  rcases Nat.lt_or_ge f.bits 8 with hbits | hbits
  · rw [sl.fetch_of_bits_lt_eight hbits, Option.map_eq_some_iff] at h
    obtain ⟨b, -, rfl⟩ := h
    exact Laws.EncodeWf.fits _ (by omega)
  · rw [sl.fetch_of_eight_le_bits hbits] at h
    have hwhole : 8 * (f.bits / 8) = f.bits := by revert hbits; cases f <;> decide
    exact hwhole ▸ Slice.read_lt h

/-- Settles O56: a value that fits its format decodes to its fields. -/
theorem fetchedPixelsDecode : Obligations.FetchedPixelsDecode := by
  unfold Obligations.FetchedPixelsDecode
  intro sl f i raw h
  exact ⟨Slice.fetch_lt h, decode_pixel (Slice.fetch_lt h)⟩

/-! ## How much of a pixel the slice holds -/

/-- Settles O14: each class is a range of the first byte, which grows with the index and is all that pixels of one byte
share; only a pixel of two bytes or more can be cut. -/
theorem pixelPresenceClasses : Obligations.PixelPresenceClasses := by
  unfold Obligations.PixelPresenceClasses
  intro f avail i j
  refine ⟨f.presence_present_iff avail i, f.presence_missing_iff avail i, f.presence_partly_iff avail i, ?_, ?_, ?_, ?_⟩
  · intro hpartly
    obtain ⟨hfirst, hlast⟩ := (f.presence_partly_iff avail i).mp hpartly
    have hbytes : 2 ≤ f.bytes := by omega
    revert hbytes
    cases f <;> decide
  · intro _ hsame
    have hfirst : f.firstByte i = f.firstByte j := hsame
    rw [Format.presence, Format.presence, hfirst]
  · intro hij
    have hmono := f.firstByte_mono hij
    simp only [ne_eq, f.presence_present_iff]
    omega
  · intro hij
    have hmono := f.firstByte_mono hij
    simp only [f.presence_missing_iff]
    omega

/-! ## The colour of a pixel -/

/-- Under FORMAT_OF_ZERO every pixel is what its format makes of the fetched value (R194). -/
theorem pixelColor_formatOfZero (sl : Slice) (f : Format) (i : Nat) :
    pixelColor .formatOfZero sl f i = (sl.fetch f i).bind (unpackRaw f) := by
  rcases Nat.lt_or_ge (f.firstByte i) sl.avail with hsome | hmissing
  · exact pixelColor_present _ hsome
  · rw [Slice.fetch_missing hmissing]
    simp only [pixelColor, (f.presence_missing_iff sl.avail i).mpr hmissing, Option.bind_some]

/-- A raw value of 0 is black: opaque for the intensity formats, whose alpha is no data, and else clear (R115, R133). -/
theorem unpackRaw_zero {f : Format} (h : f.isPalette = false) :
    unpackRaw f 0 = some (if f = .i1 ∨ f = .i4 ∨ f = .i8 then ⟨0, 0, 0, 0xFF⟩ else ⟨0, 0, 0, 0⟩) := by
  cases f
  case ci4 | ci8 => cases h
  all_goals decide

/-- Settles O15: the two readings differ only where no byte of the pixel exists, and there its raw value is 0. -/
theorem shortFillReadings : Obligations.ShortFillReadings := by
  unfold Obligations.ShortFillReadings
  refine ⟨rfl, fun sl f i hf => ⟨fun h => ?_, fun h => ?_, pixelColor_formatOfZero sl f i, fun h => ?_⟩⟩
  · exact pixelColor_missing ((f.presence_missing_iff sl.avail i).mp h)
  · rw [ne_eq, f.presence_missing_iff, Nat.not_le] at h
    exact pixelColor_present _ h
  · rw [pixelColor_formatOfZero, Slice.fetch_missing ((f.presence_missing_iff sl.avail i).mp h), Option.bind_some,
      unpackRaw_zero hf]

/-- A byte of the slice that begins one byte later is the next byte of the slice that begins at the earlier byte. -/
theorem Slice.byte_slide (src : Memory) (base avail k : Nat) :
    Slice.byte ⟨src, base + 1, avail⟩ k = Slice.byte ⟨src, base, avail + 1⟩ (k + 1) := by
  simp only [Slice.byte, Nat.add_lt_add_iff_right, Nat.add_assoc, Nat.add_comm 1]

/-- Settles O16: the pixel one byte on has the same bytes, the same place in its byte and the same class. -/
theorem windowSlidesByWholeBytes : Obligations.WindowSlidesByWholeBytes := by
  unfold Obligations.WindowSlidesByWholeBytes
  intro src base avail i f hf
  have hplace := Format.mul_bits_slide hf i
  have hfirst : f.firstByte (i + 8 / f.bits) = f.firstByte i + 1 := by
    simp only [Format.firstByte, hplace]
    omega
  have hclass : f.presence (avail + 1) (i + 8 / f.bits) = f.presence avail i := by
    simp only [Format.presence, hfirst, Nat.add_right_comm _ 1, Nat.add_le_add_iff_right]
  have hfetch : Slice.fetch ⟨src, base + 1, avail⟩ f i = Slice.fetch ⟨src, base, avail + 1⟩ f (i + 8 / f.bits) := by
    simp only [Slice.fetch, hfirst, hplace, Nat.add_mod_right, Slice.byte_slide]
    rw [Slice.read_congr fun j _ => (Slice.byte_slide src base avail _).trans (by rw [Nat.add_right_comm])]
  simp only [pixelColor, hclass, hfetch]

end Sys2Proof.Machine
end

section
/-! SUPPORT. Proofs about one pixel: as an instruction inside a decode, and from the bytes of the slice to the colour in
DST. -/

namespace Sys2Proof.Machine

/-! ## The colours of the intensity formats, by their bits -/

theorem unpackI1_eq (i : BitVec 1) : unpackI1 i = if i = 1 then ⟨0xFF, 0xFF, 0xFF, 0xFF⟩ else ⟨0, 0, 0, 0xFF⟩ := by
  unfold unpackI1 lut1
  split <;> rfl

theorem unpackI4_eq (i : BitVec 4) :
    unpackI4 i = ⟨i ++ (0 : BitVec 4), i ++ (0 : BitVec 4), i ++ (0 : BitVec 4), 0xFF⟩ := by
  rw [unpackI4, shl4_eq_append, grey]

theorem unpackIa4_eq (i : BitVec 3) (a : BitVec 1) :
    unpackIa4 i a = ⟨i ++ i ++ i.extractLsb' 1 2, i ++ i ++ i.extractLsb' 1 2, i ++ i ++ i.extractLsb' 1 2,
      lut1 a⟩ := by
  rw [unpackIa4, lut3_eq_append, grey]

theorem unpackIa8_eq (i a : BitVec 4) : unpackIa8 i a = ⟨i ++ i, i ++ i, i ++ i, a ++ a⟩ := by
  rw [unpackIa8, lut4_eq_append, lut4_eq_append, grey]

theorem unpackRgba16_eq (u v w : BitVec 5) (a : BitVec 1) :
    unpackRgba16 u v w a =
      ⟨u ++ u.extractLsb' 2 3, v ++ v.extractLsb' 2 3, w ++ w.extractLsb' 2 3, lut1 a⟩ := by
  simp only [unpackRgba16, lut5_eq_append]

/-! ## A pixel as an instruction -/

/-- A pixel instruction inside a decode command stores its colour where its first byte exists, and else the colour of a
missing pixel (R194, R196). -/
theorem exec_pixel_completes {s : State} {r : Raster} {i : Instr} {f : Format} {c c' zero : Color} {k : Nat}
    (hr : s.raster = some r) (hexec : exec i s = storePixel f c zero s) (hk : f.firstByte r.pix = k) (hc : c = c') :
    ∃ t, exec i s = .next t ∧ PixelDone r (if k < r.avail then c' else ⟨0, 0, 0, 0⟩) s t := by
  subst hk hc
  exact ⟨_, hexec.trans (storePixel_eq hr f c zero), s.pixelAt_done r _⟩

/-- Settles O17, format by format: where its pixel stands and what colour its bits give. -/
theorem intensityPixelCompletes : Obligations.IntensityPixelCompletes := by
  unfold Obligations.IntensityPixelCompletes
  intro s r hr
  refine ⟨fun i => ?_, fun i => ?_, fun i => ?_⟩
  · exact exec_pixel_completes hr rfl (Format.firstByte_of_bits_one rfl _) (unpackI1_eq i)
  · exact exec_pixel_completes hr rfl (Format.firstByte_of_bits_four rfl _) (unpackI4_eq i)
  · exact exec_pixel_completes hr rfl (Format.firstByte_of_bits_eight rfl _) rfl

/-- Settles O18, format by format: where its pixel stands and what colour its bits give. -/
theorem intensityAlphaPixelCompletes : Obligations.IntensityAlphaPixelCompletes := by
  unfold Obligations.IntensityAlphaPixelCompletes
  intro s r hr
  refine ⟨fun i a => ?_, fun i a => ?_, fun i a => ?_⟩
  · exact exec_pixel_completes hr rfl (Format.firstByte_of_bits_four rfl _) (unpackIa4_eq i a)
  · exact exec_pixel_completes hr rfl (Format.firstByte_of_bits_eight rfl _) (unpackIa8_eq i a)
  · exact exec_pixel_completes hr rfl (Format.firstByte_of_bits_sixteen rfl _) rfl

/-- Settles O19, format by format: where its pixel stands and what colour its bits give. -/
theorem directColorPixelCompletes : Obligations.DirectColorPixelCompletes := by
  unfold Obligations.DirectColorPixelCompletes
  intro s r hr
  refine ⟨fun u v w a => ?_, fun u v w a => ?_⟩
  · exact exec_pixel_completes hr rfl (Format.firstByte_of_bits_sixteen rfl _) (unpackRgba16_eq u v w a)
  · exact exec_pixel_completes hr rfl (Format.firstByte_of_bits_thirtyTwo rfl _) rfl

/-! ## A pixel by its raw value -/

/-- The raw value of a pixel instruction unpacks to that instruction's colour: its bits are decoded to it again (R83). -/
theorem unpackRaw_encode {i : Instr} {f : Format} (hsel : (encode i).selector = .fmt) (htag : (encode i).word = f.tag) :
    unpackRaw f (encode i).raw = unpack i := by
  obtain ⟨hcmd, -⟩ | ⟨-, f', hf', -, hpixel⟩ := decode_eq_ok_iff.mp (decodeOfEncode i)
  · rw [hsel] at hcmd
    cases hcmd
  · rw [htag, Format.ofTag_tag] at hf'
    obtain rfl := Option.some.inj hf'
    rw [unpackRaw, hpixel]

theorem unpackRaw_i1_bit (b : Byte) (k : Nat) :
    unpackRaw .i1 ((b.extractLsb' k 1).setWidth 32) =
      some (if b.getLsbD k then ⟨0xFF, 0xFF, 0xFF, 0xFF⟩ else ⟨0, 0, 0, 0xFF⟩) := by
  refine (unpackRaw_encode (i := .i1 (b.extractLsb' k 1)) rfl rfl).trans ?_
  rw [unpack, unpackI1, lut1_extractLsb']
  split <;> rfl

theorem unpackRaw_i4 (n : BitVec 4) :
    unpackRaw .i4 (n.setWidth 32) =
      some ⟨n ++ (0 : BitVec 4), n ++ (0 : BitVec 4), n ++ (0 : BitVec 4), 0xFF⟩ := by
  rw [← unpackI4_eq]
  exact unpackRaw_encode (i := .i4 n) rfl rfl

theorem unpackRaw_i8 (b : Byte) : unpackRaw .i8 (b.setWidth 32) = some ⟨b, b, b, 0xFF⟩ :=
  unpackRaw_encode (i := .i8 b) rfl rfl

/-- The three high bits of an IA4 pixel are its intensity, the low one its alpha (R130). -/
theorem unpackRaw_ia4 (n : BitVec 4) :
    unpackRaw .ia4 (n.setWidth 32) =
      some (let i := n.extractLsb' 1 3
        let v : Byte := i ++ i ++ i.extractLsb' 1 2
        ⟨v, v, v, if n.getLsbD 0 then 0xFF else 0x00⟩) := by
  simp only [unpackRaw, unpack, decodePixel, BitVec.extractLsb'_setWidth_of_le, Nat.reduceAdd, Nat.reduceLeDiff,
    unpackIa4_eq, lut1_extractLsb']

/-- The high nibble of an IA8 pixel is its intensity, the low one its alpha (R131). -/
theorem unpackRaw_ia8 (b : Byte) :
    unpackRaw .ia8 (b.setWidth 32) =
      some (let v : Byte := b.extractLsb' 4 4 ++ b.extractLsb' 4 4
        ⟨v, v, v, b.extractLsb' 0 4 ++ b.extractLsb' 0 4⟩) := by
  simp only [unpackRaw, unpack, decodePixel, BitVec.extractLsb'_setWidth_of_le, Nat.reduceAdd, Nat.reduceLeDiff,
    unpackIa8_eq]

theorem unpackRaw_ia16 (b c : Byte) : unpackRaw .ia16 ((b ++ c).setWidth 32) = some ⟨b, b, b, c⟩ :=
  unpackRaw_encode (i := .ia16 b c) rfl rfl

/-! ## From the bytes of the slice -/

/-- An 8-bit pixel is its byte (R57). -/
theorem Slice.fetch_of_bits_eight (sl : Slice) {f : Format} (h : f.bits = 8) (i : Nat) :
    sl.fetch f i = (sl.byte i).map (·.setWidth 32) := by
  rw [sl.fetch_of_eight_le_bits h.ge, Format.firstByte_of_bits_eight h, h, ← sl.read_one]

/-- Settles O20: the fetched raw value is a field of the pixel's byte, and unpacks to the colour stored. -/
theorem intensityPixelFromSource : Obligations.IntensityPixelFromSource := by
  unfold Obligations.IntensityPixelFromSource
  intro s r b hr
  refine ⟨fun hf hk hb => ?_, fun hf hk hb => ?_, fun hf hk hb => ?_⟩
  · refine step_stores_unpackRaw hr hf ?_ ?_ (unpackRaw_i1_bit b _)
    · rwa [Format.firstByte_of_bits_one rfl]
    · rw [Slice.fetch_i1, hb, Option.map_some]
  · refine step_stores_unpackRaw hr hf ?_ ?_ (unpackRaw_i4 _)
    · rwa [Format.firstByte_of_bits_four rfl]
    · rw [Slice.fetch_of_bits_four _ rfl, hb, Option.map_some]
  · refine step_stores_unpackRaw hr hf ?_ ?_ (unpackRaw_i8 b)
    · rwa [Format.firstByte_of_bits_eight rfl]
    · rw [Slice.fetch_of_bits_eight _ rfl, hb, Option.map_some]

/-- Settles O21: the fetched raw value is a field of the pixel's byte, its byte or its two bytes, and unpacks to the
colour stored. -/
theorem intensityAlphaPixelFromSource : Obligations.IntensityAlphaPixelFromSource := by
  unfold Obligations.IntensityAlphaPixelFromSource
  intro s r b c hr
  refine ⟨fun hf hk hb => ?_, fun hf hk hb => ?_, fun hf hk hb hc => ?_⟩
  · refine step_stores_unpackRaw hr hf ?_ ?_ (unpackRaw_ia4 _)
    · rwa [Format.firstByte_of_bits_four rfl]
    · rw [Slice.fetch_of_bits_four _ rfl, hb, Option.map_some]
  · refine step_stores_unpackRaw hr hf ?_ ?_ (unpackRaw_ia8 b)
    · rwa [Format.firstByte_of_bits_eight rfl]
    · rw [Slice.fetch_of_bits_eight _ rfl, hb, Option.map_some]
  · refine step_stores_unpackRaw hr hf ?_ ?_ (unpackRaw_ia16 b c)
    · rwa [Format.firstByte_of_bits_sixteen rfl]
    · exact Slice.fetch_rgba16 hb hc

/-- Settles O23: the colour of a pixel none of whose bytes exists does not come from its format or from SRC. -/
theorem whollyMissingPixelIsZero : Obligations.WhollyMissingPixelIsZero := by
  unfold Obligations.WhollyMissingPixelIsZero
  intro s r hr hf hmissing
  have hcolor : pixelColor Config.shortFill (r.slice s.src) r.fmt r.pix = some ⟨0, 0, 0, 0⟩ := pixelColor_missing hmissing
  exact ⟨_, (step_eq_next_iff_pixelAt hr hf).mpr ⟨_, hcolor, rfl⟩, s.pixelAt_done r _⟩

/-! ## The step inside a decode command -/

/-- Settles O55: what the latched format's tag and a raw value decode to is that format's pixel, which the step runs. -/
theorem stepRunsThePixel : Obligations.StepRunsThePixel := by
  unfold Obligations.StepRunsThePixel
  intro s r hr
  refine ⟨fun raw i hraw hi => ?_, fun hnone => ?_⟩
  · obtain ⟨hcmd, -⟩ | ⟨-, f, hf, -, rfl⟩ := decode_eq_ok_iff.mp hi
    · cases hcmd
    · obtain rfl := Option.some.inj ((Format.ofTag_tag _).symm.trans hf)
      simp only [step_pixel hr, pixelStep, fetchPixel, hraw, Option.map_some]
  · simp only [step_pixel hr, pixelStep, fetchPixel, hnone, Option.map_none]

/-- A command that ends without an image writes no operand. -/
theorem State.endWithout_keeps (s : State) (st : Status) : KeepsOperands s (s.endWithout st) := by
  constructor <;> rfl

/-- Settles O57: the pixel that a step inside a decode runs is stored, or is a palette index and raises its fault. -/
theorem hostWaitsForTheCommand : Obligations.HostWaitsForTheCommand := by
  unfold Obligations.HostWaitsForTheCommand
  intro s t hraster h
  obtain ⟨r, hr⟩ := Option.ne_none_iff_exists'.mp hraster
  rw [step_pixel hr, pixelStep] at h
  cases hraw : (r.slice s.src).fetch r.fmt r.pix with
  | none => simp [fetchPixel, hraw] at h
  | some raw =>
    simp only [fetchPixel, hraw, Option.map_some] at h
    cases hf : r.fmt
    case ci4 | ci8 =>
      rw [hf] at h
      obtain rfl := Host.Outcome.next.inj h
      exact s.endWithout_keeps _
    all_goals
      obtain ⟨c, hc⟩ := Option.isSome_iff_exists.mp (unpackRaw_isSome (f := r.fmt) (by rw [hf]; rfl) raw)
      rw [exec_decodePixel hr hc, Host.Outcome.next.injEq] at h
      exact h ▸ (s.pixelAt_done r _).keeps

end Sys2Proof.Machine
end

section
/-! SUPPORT. Proofs about the decode commands: their checks, the image they make, and what it depends on. -/

namespace Sys2Proof.Machine

/-! ## The checks before the first pixel -/

/-- The tags of the palette formats are 6 and 7 (R81, R140). -/
theorem tag_isPalette_iff {t : Word} : (∃ f, Format.ofTag t = some f ∧ f.isPalette = true) ↔ t = 6 ∨ t = 7 := by
  simp only [Format.ofTag_eq_some_iff]
  constructor
  · rintro ⟨f, rfl, hf⟩
    cases f
    case ci4 => exact .inl rfl
    case ci8 => exact .inr rfl
    all_goals cases hf
  · rintro (rfl | rfl)
    · exact ⟨.ci4, rfl, rfl⟩
    · exact ⟨.ci8, rfl, rfl⟩

/-- A tag that names no format is reported before anything else is looked at (R193, R223). -/
theorem decodeCommon_of_unknown {s : State} (ht : Format.ofTag s.fmt = none) (max : Option Nat) (base avail : Nat) :
    decodeCommon max base avail s = .next (s.raise .unsupportedFormat) := by
  simp only [decodeCommon, ht]

/-- A tile larger than the platform's DST is refused where the loop would start (R266). -/
theorem decodeCommon_over_capacity {s : State} {f : Format} {m : Nat} (ht : Format.ofTag s.fmt = some f)
    (hf : f.isPalette = false) (hm : m < tilePixels s.width s.height) (base avail : Nat) :
    decodeCommon (some m) base avail s = .refused (.destinationCapacity (tilePixels s.width s.height)) := by
  simp [decodeCommon, ht, hf, overCapacity, hm]

/-- Settles O24: a palette index raises its fault, and so does a decode with one of their two tags. -/
theorem colorIndexAlwaysFaults : Obligations.ColorIndexAlwaysFaults := by
  unfold Obligations.ColorIndexAlwaysFaults
  intro s
  refine ⟨fun _ => rfl, fun _ => rfl, fun htag => ?_⟩
  obtain ⟨f, ht, hf⟩ := tag_isPalette_iff.mpr htag
  refine ⟨decodeCommon_of_isPalette ht hf, fun hin => ?_⟩
  rw [exec_decodeWindow_of_lt hin]
  exact decodeCommon_of_isPalette ht hf

/-- Settles O28: such a tag names no format. -/
theorem unknownTagFaults : Obligations.UnknownTagFaults := by
  unfold Obligations.UnknownTagFaults
  intro s htag
  have ht := Format.ofTag_eq_none_iff.mpr htag
  refine ⟨decodeCommon_of_unknown ht _ _ _, fun hin => ?_⟩
  rw [exec_decodeWindow_of_lt hin]
  exact decodeCommon_of_unknown ht _ _ _

/-- A `DecodeCommon` never answers that there is nothing to draw (R222). -/
theorem decodeCommon_ne_nothingToDraw {max : Option Nat} {base avail : Nat} {s t : State}
    (h : decodeCommon max base avail s = .next t) : t.status ≠ .nothingToDraw := by
  obtain ⟨-, rfl⟩ | ⟨f, -, -, rfl⟩ | ⟨f, dst, -, -, -, -, rfl⟩ := decodeCommon_cases h <;> exact Status.noConfusion

/-- Settles O27: past the end of SRC the command ends at once, and before it both commands are a `DecodeCommon`. -/
theorem windowPastTheEndDrawsNothing : Obligations.WindowPastTheEndDrawsNothing := by
  unfold Obligations.WindowPastTheEndDrawsNothing
  intro s
  refine ⟨exec_decodeWindow_of_le, fun hin t h => ?_, fun t h => decodeCommon_ne_nothingToDraw h⟩
  rw [exec_decodeWindow_of_lt hin] at h
  exact decodeCommon_ne_nothingToDraw h

/-- Settles O29: the slice from byte 0 is all of SRC. -/
theorem windowAtZeroIsDecode : Obligations.WindowAtZeroIsDecode := by
  unfold Obligations.WindowAtZeroIsDecode
  intro s hoffset hlen
  rw [exec_decodeWindow_of_lt (by omega), hoffset, Nat.sub_zero]
  rfl

/-- Settles O31: the capacity is looked at after both format tests, and only by a tile that is over it. -/
theorem capacityRefusesOnlyImages : Obligations.CapacityRefusesOnlyImages := by
  unfold Obligations.CapacityRefusesOnlyImages
  intro m base avail s
  refine ⟨fun f ht hf hm => decodeCommon_over_capacity ht hf hm _ _, ?_, rfl, exec_decodeWindow_of_lt⟩
  rintro (hfits | hunknown | ⟨f, ht, hf⟩)
  · have hcap : overCapacity (some m) (tilePixels s.width s.height) = false := decide_eq_false (Nat.not_lt.mpr hfits)
    have hunbounded : overCapacity none (tilePixels s.width s.height) = false := rfl
    simp only [decodeCommon, hcap, hunbounded]
  · rw [decodeCommon_of_unknown hunknown, decodeCommon_of_unknown hunknown]
  · rw [decodeCommon_of_isPalette ht hf, decodeCommon_of_isPalette ht hf]

/-! ## The image -/

/-- A painted tile is the image, with everything else as it was (R193, R197, R200). -/
theorem imageDone_of_paint_ok {s : State} {sl : Slice} {f : Format} {dst : Memory}
    (h : paint sl f (tilePixels s.width s.height) 0 s.dst = .ok dst) :
    ImageDone f sl s
      (State.endCommand { s with dst := dst } .image (4 * tilePixels s.width s.height) s.width s.height) := by
  obtain ⟨pixels, elsewhere⟩ := paint_ok h
  exact
    { keeps := by constructor <;> rfl
      status := rfl
      dstLen := dstLen_toNat s.width s.height
      outWidth := rfl
      outHeight := rfl
      raster := rfl
      pixels := fun i hi => pixels i (Nat.zero_le i) (hi.trans_eq (Nat.zero_add _).symm)
      elsewhere := fun k hk => elsewhere k (.inr (by rwa [Nat.zero_add])) }

section
variable {max : Option Nat} {base avail : Nat} {s : State} {f : Format}

/-- With every needed byte supplied and within the capacity, a decode makes its image (R195, R263, R266). -/
theorem decodeCommon_makes_image (ht : Format.ofTag s.fmt = some f) (hf : f.isPalette = false)
    (hcap : ∀ m, max = some m → tilePixels s.width s.height ≤ m)
    (hsupplied : Slice.supplied ⟨s.src, base, avail⟩ f (tilePixels s.width s.height)) :
    ∃ t, decodeCommon max base avail s = .next t ∧ ImageDone f ⟨s.src, base, avail⟩ s t := by
  have hover := (overCapacity_eq_false_iff _ _).mpr hcap
  cases hpaint : paint ⟨s.src, base, avail⟩ f (tilePixels s.width s.height) 0 s.dst with
  | ok dst => exact ⟨_, decodeCommon_of_paint_ok ht hf hover hpaint, imageDone_of_paint_ok hpaint⟩
  | error p =>
    obtain ⟨-, hp, hnone⟩ := paint_error hpaint
    have hsome := pixelColor_of_supplied (i := p) hf hsupplied (by omega)
    simp [hnone] at hsome

/-- With a needed byte not supplied, a decode within the capacity is refused at a pixel of its tile (R263). -/
theorem decodeCommon_refuses_unsupplied (ht : Format.ofTag s.fmt = some f) (hf : f.isPalette = false)
    (hcap : ∀ m, max = some m → tilePixels s.width s.height ≤ m)
    (hsupplied : ¬ Slice.supplied ⟨s.src, base, avail⟩ f (tilePixels s.width s.height)) :
    ∃ p, p < tilePixels s.width s.height ∧ decodeCommon max base avail s = .refused (.srcNotSupplied p) := by
  rw [decodeCommon_eq_paint ht hf ((overCapacity_eq_false_iff _ _).mpr hcap)]
  cases hpaint : paint ⟨s.src, base, avail⟩ f (tilePixels s.width s.height) 0 s.dst with
  | ok dst =>
    obtain ⟨i, hi, hnone⟩ := pixelColor_of_not_supplied hf hsupplied
    obtain ⟨pixels, -⟩ := paint_ok hpaint
    obtain ⟨c, hc, -⟩ := pixels i (Nat.zero_le i) (by omega)
    rw [hnone] at hc
    cases hc
  | error p =>
    obtain ⟨-, hp, -⟩ := paint_error hpaint
    exact ⟨p, by omega, rfl⟩

end

/-- Settles O25: DECODE is a decode of the slice from byte 0. -/
theorem decodeMakesTheImage : Obligations.DecodeMakesTheImage := by
  unfold Obligations.DecodeMakesTheImage
  intro s f ht hf hcap hsupplied
  exact decodeCommon_makes_image ht hf hcap hsupplied

/-- Settles O26: DECODE_WINDOW before the end of SRC is a decode of the slice from OFFSET. -/
theorem decodeWindowMakesTheImage : Obligations.DecodeWindowMakesTheImage := by
  unfold Obligations.DecodeWindowMakesTheImage
  intro s f ht hf hin hcap hsupplied
  rw [exec_decodeWindow_of_lt hin]
  exact decodeCommon_makes_image ht hf hcap hsupplied

/-- Settles O32, for DECODE and for DECODE_WINDOW before the end of SRC. -/
theorem unsuppliedSourceIsRefused : Obligations.UnsuppliedSourceIsRefused := by
  unfold Obligations.UnsuppliedSourceIsRefused
  intro s f ht hf hcap
  refine ⟨fun hsupplied => decodeCommon_refuses_unsupplied ht hf hcap hsupplied, fun hin hsupplied => ?_⟩
  rw [exec_decodeWindow_of_lt hin]
  exact decodeCommon_refuses_unsupplied ht hf hcap hsupplied

/-- Settles O36: the painting knows the number of pixels only. -/
theorem imageIgnoresTileShape : Obligations.ImageIgnoresTileShape := by
  unfold Obligations.ImageIgnoresTileShape
  intro s t w h hsize hdecode himage
  obtain ⟨f, dst, ht, hf, hcap, hpaint, rfl⟩ := decodeCommon_image hdecode himage
  have hpix : tilePixels s.width s.height = tilePixels w h := hsize.symm
  rw [hpix] at hcap hpaint
  refine ⟨_, decodeCommon_of_paint_ok (s := { s with width := w, height := h }) ht hf hcap hpaint, rfl, ?_, fun _ => rfl⟩
  simp only [State.endCommand_dstLen, hpix]

/-! ## The raster, step by step -/

/-- As many steps of the machine as pixels are left are as many rounds of the raster loop (R21, R196). -/
theorem run_eq_rasterLoop {n : Nat} {s : State} {r : Raster} (hr : s.raster = some r) (hf : r.fmt.isPalette = false)
    (hn : r.pix + n ≤ r.npix) : run n s = rasterLoop n s := by
  induction n generalizing s r with
  | zero => rfl
  | succ n ih =>
    simp only [run, rasterLoop, step_eq_rasterStep hr, rasterStep_eq hr hf]
    cases pixelColor Config.shortFill (r.slice s.src) r.fmt r.pix with
    | none => rfl
    | some c =>
      cases n with
      | zero => rfl
      | succ n =>
        have hmore : r.next.pix < r.next.npix := by
          rw [Raster.next_pix, Raster.next_npix]
          omega
        have hnext : (s.pixelAt r c).raster = some r.next := by rw [State.pixelAt, State.atPixel_of_lt _ hmore]
        refine ih hnext (by rwa [Raster.next_fmt]) ?_
        rw [Raster.next_pix, Raster.next_npix]
        omega

/-- A decode that answers a next state does so by the machine's own steps, from where it starts the raster. -/
theorem run_startRaster {max : Option Nat} {base avail : Nat} {s t : State} {f : Format}
    (ht : Format.ofTag s.fmt = some f) (hf : f.isPalette = false) (h : decodeCommon max base avail s = .next t) :
    run (tilePixels s.width s.height) (startRaster f base avail s) = .next t := by
  simp only [decodeCommon, ht, hf, Bool.false_eq_true, if_false] at h
  split at h
  · cases h
  · rw [← h]
    cases hn : tilePixels s.width s.height with
    | zero => rfl
    | succ n =>
      rw [startRaster, State.atPixel_of_lt _ (by simp [Raster.npix, hn])]
      exact run_eq_rasterLoop rfl hf (by simp [Raster.npix, hn])

/-- Settles O39: a decode is the raster loop, whose rounds are the machine's steps. -/
theorem stepwiseRasterIsDecode : Obligations.StepwiseRasterIsDecode := by
  unfold Obligations.StepwiseRasterIsDecode
  intro s t f ht hf
  refine ⟨fun h => run_startRaster ht hf h, fun hin h => ?_⟩
  rw [exec_decodeWindow_of_lt hin] at h
  exact run_startRaster ht hf h

end Sys2Proof.Machine
end

section
/-! SUPPORT. Proofs about the results of a command: what it leaves in STATUS and the result registers, that they depend on
its operands alone, and that an image is the padded unpacking of its slice. -/

namespace Sys2Proof.Machine

/-! ## The result registers -/

/-- With anything but an image in STATUS no byte of DST is valid (R59). -/
theorem State.dstByte_of_ne_image {s : State} (h : s.status ≠ .image) (k : Nat) : s.dstByte k = none := by
  unfold State.dstByte
  split
  · next himage => exact absurd himage h
  all_goals rfl

/-- What R35 says of the state `t` in which a command with the tile of `s` ended: the size of the image, or zeros. -/
def ResultsSay (s t : State) : Prop :=
  (t.status = .image → t.dstLen.toNat = 4 * (s.width.toNat * s.height.toNat) ∧
    t.outWidth = s.width ∧ t.outHeight = s.height) ∧
  (t.status ≠ .image → t.dstLen = 0 ∧ t.outWidth = 0 ∧ t.outHeight = 0 ∧ ∀ k, t.dstByte k = none)

theorem resultsSay_endWithout (s u : State) {st : Status} (h : st ≠ .image) : ResultsSay s (u.endWithout st) :=
  ⟨fun himage => absurd himage h, fun _ => ⟨rfl, rfl, rfl, State.dstByte_of_ne_image h⟩⟩

theorem resultsSay_endImage (s : State) (dst : Memory) :
    ResultsSay s
      (State.endCommand { s with dst := dst } .image (4 * tilePixels s.width s.height) s.width s.height) :=
  ⟨fun _ => ⟨dstLen_toNat s.width s.height, rfl, rfl⟩, fun hno => absurd rfl hno⟩

/-- What a decode leaves, in the order of its checks (R193, R228). -/
theorem decodeCommon_results {max : Option Nat} {base avail : Nat} {s t : State}
    (h : decodeCommon max base avail s = .next t) :
    t.status = (if 10 ≤ s.fmt.toNat then .fault .unsupportedFormat
      else if s.fmt = 6 ∨ s.fmt = 7 then .fault .unresolvedPaletteFormat else .image) ∧ ResultsSay s t := by
  have known {f : Format} (ht : Format.ofTag s.fmt = some f) : ¬ 10 ≤ s.fmt.toNat := by
    rw [← Format.ofTag_eq_none_iff, ht]
    exact nofun
  obtain ⟨hnone, rfl⟩ | ⟨f, ht, hf, rfl⟩ | ⟨f, dst, ht, hf, -, -, rfl⟩ := decodeCommon_cases h
  · rw [if_pos (Format.ofTag_eq_none_iff.mp hnone)]
    exact ⟨rfl, resultsSay_endWithout _ _ nofun⟩
  · rw [if_neg (known ht), if_pos (tag_isPalette_iff.mp ⟨f, ht, hf⟩)]
    exact ⟨rfl, resultsSay_endWithout _ _ nofun⟩
  · have direct : ¬ (s.fmt = 6 ∨ s.fmt = 7) := by
      rw [← tag_isPalette_iff, ht]
      rintro ⟨f', hf', hpal⟩
      obtain rfl := Option.some.inj hf'
      rw [hf] at hpal
      cases hpal
    rw [if_neg (known ht), if_neg direct]
    exact ⟨rfl, resultsSay_endImage s dst⟩

/-- Settles O30, by the number written. -/
theorem commandResults : Obligations.CommandResults := by
  unfold Obligations.CommandResults
  intro s t v rest hr hh hv h
  have hword : (BitVec.ofNat 32 v).toNat = v := Nat.mod_eq_of_lt hv
  rw [step_command hr hh hv] at h
  have answers := commandWrite_cases h
  rw [hword] at answers
  obtain ⟨hcode, rfl⟩ | ⟨hcode, hdecode⟩ | ⟨hcode, hpast, rfl⟩ | ⟨hcode, hin, hdecode⟩ | ⟨h₃, h₇, color, packed, rfl⟩ :=
    answers
  · rw [if_pos hcode]
    exact ⟨rfl, resultsSay_endWithout _ _ nofun⟩
  · rw [if_neg (by omega), if_neg (by omega), if_neg (by omega)]
    exact decodeCommon_results (s := { s with host := rest }) hdecode
  · rw [if_neg (by omega), if_neg (by omega), if_pos ⟨hcode, hpast⟩]
    exact ⟨rfl, resultsSay_endWithout _ _ nofun⟩
  · rw [if_neg (by omega), if_neg (by omega), if_neg (not_and_of_not_right _ (Nat.not_le.mpr hin))]
    exact decodeCommon_results (s := { s with host := rest }) hdecode
  · rw [if_neg (by omega), if_pos h₃]
    exact ⟨rfl, resultsSay_endWithout _ _ nofun⟩

/-! ## What the results depend on -/

/-- The two states have the same platform limit, operand registers and source: all that a command reads (R38). -/
structure SameOperands (s s' : State) : Prop where
  maxPixels : s.maxPixels = s'.maxPixels
  fmt : s.fmt = s'.fmt
  width : s.width = s'.width
  height : s.height = s'.height
  offset : s.offset = s'.offset
  srcLen : s.srcLen = s'.srcLen
  color : s.color = s'.color
  packed : s.packed = s'.packed
  src : s.src = s'.src

/-- A host cannot tell the two states apart by what it may read (R23, R59). -/
def SameView (t t' : State) : Prop := (∀ n, t.readReg n = t'.readReg n) ∧ ∀ k, t.dstByte k = t'.dstByte k

/-- Commands that end alike on the same operands leave the same registers (R23). -/
theorem SameOperands.readReg_endCommand {s s' : State} (h : SameOperands s s') (st : Status) {len len' : Nat}
    {width width' height height' : Word} (hlen : len = len') (hwidth : width = width') (hheight : height = height')
    (n : Nat) : (s.endCommand st len width height).readReg n = (s'.endCommand st len' width' height').readReg n := by
  unfold State.readReg
  split <;>
    simp [h.fmt, h.width, h.height, h.offset, h.srcLen, h.color, h.packed, hlen, hwidth, hheight]

/-- Without an image there is no more to read than the registers. -/
theorem SameOperands.view_endWithout {s s' : State} (h : SameOperands s s') {st : Status} (hst : st ≠ .image) :
    SameView (s.endWithout st) (s'.endWithout st) :=
  ⟨h.readReg_endCommand st rfl rfl rfl, fun k => by
    rw [State.dstByte_of_ne_image hst, State.dstByte_of_ne_image hst]⟩

/-- Images of the operands' tile with the same bytes are read alike. -/
theorem SameOperands.view_endImage {s s' : State} (h : SameOperands s s') {dst dst' : Memory}
    (hbytes : ∀ k, k < 4 * tilePixels s.width s.height → dst.read k = dst'.read k) :
    SameView
      (State.endCommand { s with dst := dst } .image (4 * tilePixels s.width s.height) s.width s.height)
      (State.endCommand { s' with dst := dst' } .image (4 * tilePixels s'.width s'.height) s'.width s'.height) := by
  have hsame : SameOperands { s with dst := dst } { s' with dst := dst' } := { h with }
  have hlen : 4 * tilePixels s'.width s'.height = 4 * tilePixels s.width s.height := by rw [h.width, h.height]
  refine ⟨hsame.readReg_endCommand _ hlen.symm h.width h.height, fun k => ?_⟩
  simp only [State.dstByte, State.endCommand_status, State.endCommand_dstLen, State.endCommand_dst, dstLen_toNat, hlen]
  split
  · next hk => exact hbytes k hk
  · rfl

/-- A decode reads its operands, its slice and the limit, and paints over whatever DST holds (R38). -/
theorem SameOperands.decodeCommon {s s' t : State} (h : SameOperands s s') {max : Option Nat} {base avail : Nat}
    (hdecode : decodeCommon max base avail s = .next t) :
    ∃ t', decodeCommon max base avail s' = .next t' ∧ SameView t t' := by
  obtain ⟨ht, rfl⟩ | ⟨f, ht, hf, rfl⟩ | ⟨f, dst, ht, hf, hcap, hpaint, rfl⟩ := decodeCommon_cases hdecode
  all_goals rw [h.fmt] at ht
  · exact ⟨_, decodeCommon_of_unknown ht _ _ _, h.view_endWithout nofun⟩
  · exact ⟨_, decodeCommon_of_isPalette ht hf, h.view_endWithout nofun⟩
  · obtain ⟨dst', hpaint', hbytes⟩ := paint_fresh hpaint s'.dst
    rw [h.width, h.height] at hcap hpaint'
    rw [h.src] at hpaint'
    refine ⟨_, decodeCommon_of_paint_ok ht hf hcap hpaint', h.view_endImage fun k hk => ?_⟩
    obtain ⟨b, hb, hb'⟩ := hbytes k hk
    rw [hb, hb']

/-- Settles O35, by the number written. -/
theorem commandsAreStateless : Obligations.CommandsAreStateless := by
  unfold Obligations.CommandsAreStateless
  intro s s' t c hmax hfmt hwidth hheight hoffset hsrcLen hcolor hpacked hsrc h
  have hsame : SameOperands s s' := ⟨hmax, hfmt, hwidth, hheight, hoffset, hsrcLen, hcolor, hpacked, hsrc⟩
  obtain ⟨hc, rfl⟩ | ⟨hc, h⟩ | ⟨hc, hpast, rfl⟩ | ⟨hc, hin, h⟩ | ⟨h₃, h₇, -⟩ := commandWrite_cases h
  · exact ⟨_, commandWrite_illegal hc s', hsame.view_endWithout nofun⟩
  · rw [commandWrite_decode hc, ← hmax, ← hsrcLen]
    exact hsame.decodeCommon h
  · rw [hsrcLen, hoffset] at hpast
    rw [commandWrite_decodeWindow hc]
    exact ⟨_, exec_decodeWindow_of_le hpast, hsame.view_endWithout nofun⟩
  · rw [commandWrite_decodeWindow hc, exec_decodeWindow_of_lt (by omega), ← hmax, ← hsrcLen, ← hoffset]
    exact hsame.decodeCommon h
  · obtain ⟨color, packed, hrun⟩ := commandWrite_color h₃ h₇
    rw [hrun, Host.Outcome.next.injEq] at h
    subst h
    refine ⟨_, hrun s', SameOperands.view_endWithout ?_ nofun⟩
    exact { hsame with color := by rw [hcolor, hpacked], packed := by rw [hcolor, hpacked] }

/-! ## The padded unpacking -/

/-- The bytes `l` hold colour `c` as their pixel `i`, the bytes beyond their end read as 0x00 (R52, R198). -/
def BytesHold (l : List Byte) (i : Nat) (c : Color) : Prop :=
  l.getD (4 * i) 0 = c.r ∧ l.getD (4 * i + 1) 0 = c.g ∧ l.getD (4 * i + 2) 0 = c.b ∧ l.getD (4 * i + 3) 0 = c.a

theorem bytesHold_nil (i : Nat) : BytesHold [] i ⟨0, 0, 0, 0⟩ := ⟨rfl, rfl, rfl, rfl⟩

theorem bytesHold_zero (c : Color) (l : List Byte) : BytesHold (c.bytes ++ l) 0 c := ⟨rfl, rfl, rfl, rfl⟩

theorem bytesHold_succ {l : List Byte} {i : Nat} {d : Color} (h : BytesHold l i d) (c : Color) :
    BytesHold (c.bytes ++ l) (i + 1) d := h

/-- Where every pixel of a run has a colour, the unpacked bytes exist, and with 0x00 beyond them hold every pixel: after
the first wholly missing pixel only wholly missing ones follow, and those are all zeros (R55, R199). -/
theorem unpackedBytes_hold {sl : Slice} {f : Format} {n i : Nat}
    (h : ∀ j < n, (pixelColor Config.shortFill sl f (i + j)).isSome) :
    ∃ l, unpackedBytes sl f n i = some l ∧
      ∀ j < n, ∀ c, pixelColor Config.shortFill sl f (i + j) = some c → BytesHold l j c := by
  induction n generalizing i with
  | zero => exact ⟨[], rfl, fun j hj => absurd hj (Nat.not_lt_zero j)⟩
  | succ n ih =>
    rcases Nat.lt_or_ge (f.firstByte i) sl.avail with hsome | hmissing
    · obtain ⟨c, hc⟩ := Option.isSome_iff_exists.mp (h 0 (Nat.succ_pos n))
      rw [Nat.add_zero] at hc
      have hfetch := hc
      rw [pixelColor_present _ hsome] at hfetch
      obtain ⟨l, hl, hold⟩ := ih (i := i + 1) fun j hj => by
        rw [Nat.add_right_comm]
        exact h (j + 1) (by omega)
      refine ⟨c.bytes ++ l, ?_, fun j hj d hd => ?_⟩
      · have hclass := mt (f.presence_missing_iff sl.avail i).mp (Nat.not_le.mpr hsome)
        unfold unpackedBytes
        split
        · next hp => exact absurd hp hclass
        all_goals rw [hfetch, hl]; rfl
      · cases j with
        | zero =>
          obtain rfl : c = d := Option.some.inj (hc.symm.trans hd)
          exact bytesHold_zero c l
        | succ j =>
          have shift : i + 1 + j = i + (j + 1) := Nat.add_right_comm i 1 j
          exact bytesHold_succ (hold j (by omega) d (by rwa [shift])) c
    · refine ⟨[], ?_, fun j hj c hc => ?_⟩
      · simp only [unpackedBytes, (f.presence_missing_iff sl.avail i).mpr hmissing]
      · rw [pixelColor_missing (hmissing.trans (f.firstByte_mono (Nat.le_add_right i j)))] at hc
        obtain rfl := Option.some.inj hc
        exact bytesHold_nil j

/-- A painting of a whole tile is the padded unpacking of its slice (R199). -/
theorem paint_eq_fit {sl : Slice} {f : Format} {n : Nat} {m dst : Memory} (h : paint sl f n 0 m = .ok dst) :
    ∃ l, unpackedBytes sl f n 0 = some l ∧ ∀ k, k < 4 * n → dst.read k = (fit l (4 * n))[k]? := by
  obtain ⟨pixels, -⟩ := paint_ok h
  have colors : ∀ j < n, (pixelColor Config.shortFill sl f (0 + j)).isSome := by
    intro j hj
    obtain ⟨c, hc, -⟩ := pixels j (Nat.zero_le j) (by omega)
    simp [hc]
  obtain ⟨l, hl, hold⟩ := unpackedBytes_hold colors
  refine ⟨l, hl, fun k hk => ?_⟩
  rw [getElem?_fit l hk]
  obtain ⟨c, hc, hr, hg, hb, ha⟩ := pixels (k / 4) (Nat.zero_le _) (by omega)
  obtain ⟨hr', hg', hb', ha'⟩ := hold (k / 4) (by omega) c (by rwa [Nat.zero_add])
  have channel : k = 4 * (k / 4) ∨ k = 4 * (k / 4) + 1 ∨ k = 4 * (k / 4) + 2 ∨ k = 4 * (k / 4) + 3 := by omega
  obtain hk | hk | hk | hk := channel <;> rw [hk]
  · rw [hr, hr']
  · rw [hg, hg']
  · rw [hb, hb']
  · rw [ha, ha']

/-- An image of a `DecodeCommon` is the padded unpacking of its slice (R199). -/
theorem decodeCommon_eq_fit {max : Option Nat} {base avail : Nat} {s t : State} {f : Format}
    (ht : Format.ofTag s.fmt = some f) (h : decodeCommon max base avail s = .next t) (himage : t.status = .image) :
    ∃ l, unpackedBytes ⟨s.src, base, avail⟩ f (tilePixels s.width s.height) 0 = some l ∧
      ∀ k, k < 4 * tilePixels s.width s.height → t.dst.read k = (fit l (4 * tilePixels s.width s.height))[k]? := by
  obtain ⟨g, dst, hg, -, -, hpaint, rfl⟩ := decodeCommon_image h himage
  obtain rfl : f = g := Option.some.inj (ht.symm.trans hg)
  exact paint_eq_fit hpaint

/-- Settles O41, for DECODE and for DECODE_WINDOW, which makes an image only before the end of SRC. -/
theorem imageIsThePaddedUnpacking : Obligations.ImageIsThePaddedUnpacking := by
  unfold Obligations.ImageIsThePaddedUnpacking
  refine ⟨rfl, fun s t f ht himage => ⟨fun h => decodeCommon_eq_fit ht h himage, fun h => ?_⟩⟩
  rcases Nat.lt_or_ge s.offset s.srcLen with hin | hpast
  · rw [exec_decodeWindow_of_lt hin] at h
    exact decodeCommon_eq_fit ht h himage
  · rw [exec_decodeWindow_of_le hpast] at h
    obtain rfl := Host.Outcome.next.inj h
    cases himage

end Sys2Proof.Machine
end

section
/-! SUPPORT. Proofs about the colour commands: their results bit by bit, and their round trips. -/

namespace Sys2Proof.Machine

/-! ## 5-5-5-1 by the places of its bits -/

/-- The colour of the low half of PACKED, by the places of its bits (R172). -/
theorem word_unpack5551_low (p : Word) :
    (unpack5551 (p.extractLsb' 0 16)).word =
      p.extractLsb' 11 5 ++ p.extractLsb' 13 3 ++ p.extractLsb' 6 5 ++ p.extractLsb' 8 3 ++ p.extractLsb' 1 5 ++
        p.extractLsb' 3 3 ++ (if p.getLsbD 0 then 0xFF else 0x00 : Byte) := by
  have alpha : (p.extractLsb' 0 16).getLsbD 0 = p.getLsbD 0 := by simp
  rw [unpack5551_eq, alpha]
  generalize (if p.getLsbD 0 then 0xFF else 0x00 : Byte) = a
  refine BitVec.eq_of_getLsbD_eq fun i hi => ?_
  simp only [Color.word, BitVec.getLsbD_append, BitVec.getLsbD_extractLsb']
  interval_cases i <;> rfl

/-- The packing of COLOR, by the places of its bits (R174). -/
theorem setWidth_pack5551_ofWord (c : Word) :
    (pack5551 (Color.ofWord c)).setWidth 32 =
      (0 : BitVec 16) ++ c.extractLsb' 27 5 ++ c.extractLsb' 19 5 ++ c.extractLsb' 11 5 ++ c.extractLsb' 7 1 := by
  refine BitVec.eq_of_getLsbD_eq fun i hi => ?_
  simp only [pack5551, Color.ofWord, BitVec.getLsbD_setWidth, BitVec.getLsbD_append, BitVec.getLsbD_extractLsb']
  interval_cases i <;> rfl

/-- COLOR made opaque keeps its upper 24 bits (R175). -/
theorem word_opaque_ofWord (c : Word) :
    { Color.ofWord c with a := 0xFF : Color }.word = c.extractLsb' 8 24 ++ (0xFF : Byte) := by
  refine BitVec.eq_of_getLsbD_eq fun i hi => ?_
  simp only [Color.word, Color.ofWord, BitVec.getLsbD_append, BitVec.getLsbD_extractLsb']
  interval_cases i <;> rfl

/-- Settles O42: each command's colours, by the places of their bits, and the end that all commands share. -/
theorem colorCommandResults : Obligations.ColorCommandResults := by
  unfold Obligations.ColorCommandResults
  intro s
  refine ⟨?_, ?_, ?_, ?_, ?_⟩
  · simp only [exec, execColorFromU32, Color.word_ofWord]
    rfl
  · simp only [exec, execColorFromU16, word_unpack5551_low]
    rfl
  · simp only [exec, execColorToU32, Color.word_ofWord]
    rfl
  · simp only [exec, execColorToU16, setWidth_pack5551_ofWord]
    rfl
  · simp only [exec, execColorRgb, word_opaque_ofWord]
    rfl

/-! ## Round trips -/

/-- Packing undoes unpacking: each expansion keeps its argument in its top bits (R154, R176). -/
theorem pack5551_unpack5551 (h : BitVec 16) : pack5551 (unpack5551 h) = h := by
  have alpha (a : BitVec 1) : (lut1 a).extractLsb' 7 1 = a := by
    revert a
    decide
  simp only [pack5551, unpack5551, unpackRgba16, extractLsb'_lut5, alpha]
  iterate 3 rw [BitVec.extractLsb'_append_extractLsb'_eq_extractLsb' (by rfl)]
  exact BitVec.extractLsb'_eq_self

/-- Unpacking a packed colour narrows each channel and widens it again (R155, R174). -/
theorem unpack5551_pack5551 (c : Color) :
    unpack5551 (pack5551 c) =
      ⟨lut5 (c.r.extractLsb' 3 5), lut5 (c.g.extractLsb' 3 5), lut5 (c.b.extractLsb' 3 5),
        lut1 (c.a.extractLsb' 7 1)⟩ := by
  simp (disch := decide) only [unpack5551, pack5551, unpackRgba16, BitVec.extractLsb'_append_eq_of_add_le,
    BitVec.extractLsb'_append_eq_of_le, Nat.reduceSub, BitVec.extractLsb'_eq_self]

/-- An alpha survives its top bit exactly when it is clear or full (R176). -/
theorem lut1_extractLsb'_eq_self_iff (a : Byte) : lut1 (a.extractLsb' 7 1) = a ↔ a = 0x00 ∨ a = 0xFF := by
  revert a
  decide

/-- A colour and a word are the same 32 bits (R27). -/
theorem Color.word_eq_iff {c : Color} {v : Word} : c.word = v ↔ c = Color.ofWord v := by
  constructor
  · rintro rfl
    exact (Color.ofWord_word c).symm
  · rintro rfl
    exact Color.word_ofWord v

/-- Settles O44: the 32-bit layouts undo each other, packing undoes unpacking, and unpacking undoes packing channel by
channel where the expansion tables do. -/
theorem colorRoundTrips : Obligations.ColorRoundTrips := by
  unfold Obligations.ColorRoundTrips
  intro s t u
  refine ⟨fun h h' => ?_, fun h h' => ?_, fun h h' => ?_, fun h h' => ?_⟩ <;>
    (obtain rfl := Host.Outcome.next.inj h; obtain rfl := Host.Outcome.next.inj h')
  · simp only [State.endWithout_color, State.endWithout_packed, Color.word_ofWord]
  · simp only [State.endWithout_color, State.endWithout_packed, Color.word_ofWord]
  · simp only [State.endWithout_color, State.endWithout_packed, Color.ofWord_word, pack5551_unpack5551]
  · have hlow : ((pack5551 (Color.ofWord s.color)).setWidth 32 : Word).extractLsb' 0 16 =
        pack5551 (Color.ofWord s.color) := by
      rw [BitVec.extractLsb'_setWidth_of_le (by decide), BitVec.extractLsb'_eq_self]
    simp only [State.endWithout_color, State.endWithout_packed, hlow, unpack5551_pack5551]
    rw [Color.word_eq_iff, Color.ofWord, Color.mk.injEq, lut5_extractLsb'_eq_self_iff, lut5_extractLsb'_eq_self_iff,
      lut5_extractLsb'_eq_self_iff, lut1_extractLsb'_eq_self_iff]

end Sys2Proof.Machine
end

section
/-! SUPPORT. Proofs about the registers, STATUS, and what an access of the host does. -/

namespace Sys2Proof

/-- The number of a register (R22). -/
def Reg.number : Reg → Nat
  | .fmt => 0
  | .width => 1
  | .height => 2
  | .offset => 3
  | .srcLen => 4
  | .color => 5
  | .packed => 6
  | .cmd => 7
  | .status => 8
  | .dstLen => 9
  | .outWidth => 10
  | .outHeight => 11

/-- A register has one number, and a number names at most one register (R22). -/
theorem Reg.ofNumber_eq_some_iff {n : Nat} {r : Reg} : Reg.ofNumber n = some r ↔ n = r.number := by
  constructor
  · intro h
    unfold Reg.ofNumber at h
    split at h <;> cases h <;> rfl
  · rintro rfl
    cases r <;> rfl

end Sys2Proof

namespace Sys2Proof.Machine

/-- Settles O51, by computing each word. -/
theorem statusWords : Obligations.StatusWords := by
  unfold Obligations.StatusWords
  decide

/-! ## Reset -/

/-- Every register reads 0 after a reset (R39, R260). -/
theorem State.readReg_resetOn (addrW : Nat) (maxPixels : Option Nat) (n : Nat) :
    (State.resetOn addrW maxPixels).readReg n = 0 := by
  have hstatus : Status.word .none = 0 := by decide
  unfold State.readReg
  split <;> simp [State.resetOn, hstatus]

/-- The registers after an accepted reset are those of the platform's reset state (R260). -/
theorem State.readReg_applyReset (s : State) (n : Nat) : s.applyReset.readReg n = 0 :=
  State.readReg_resetOn s.addrW s.maxPixels n

/-- Settles O45. -/
theorem resetState : Obligations.ResetState := by
  unfold Obligations.ResetState
  exact ⟨fun addrW maxPixels => ⟨State.readReg_resetOn addrW maxPixels, rfl, rfl, State.dstByte_of_ne_image nofun⟩, rfl⟩

/-! ## Writes to registers -/

/-- A value that fits its register is read back (R23). -/
theorem State.readReg_writeReg_same (s : State) {n v : Nat} {r : Reg} (hn : Reg.ofNumber n = some r) (hdata : n ≤ 6)
    (hv : v < 2 ^ r.bits s.addrW) : (s.writeReg r v).readReg n = v := by
  interval_cases n <;> cases hn <;> exact Nat.mod_eq_of_lt hv

/-- A write to one register leaves what every other number reads (R23). -/
theorem State.readReg_writeReg_other (s : State) (v : Nat) {n : Nat} {r : Reg} (hn : Reg.ofNumber n ≠ some r) :
    (s.writeReg r v).readReg n = s.readReg n := by
  unfold State.readReg
  cases r <;> split <;> simp_all [State.writeReg]

/-- A write to a register that holds operands or a colour, as a step (R23). -/
theorem step_write_data {s : State} {n v : Nat} {r : Reg} {rest : List HostOp} (hr : s.raster = none)
    (hh : s.host = .wr n v :: rest) (hn : Reg.ofNumber n = some r) (hdata : n ≤ 6) (hv : v < 2 ^ r.bits s.addrW) :
    ∃ t, step s = .next t ∧ t.readReg n = v ∧ (∀ m, m ≠ n → t.readReg m = s.readReg m) ∧
      t.status = s.status ∧ t.src = s.src ∧ t.dst = s.dst ∧ t.raster = none ∧ t.host = rest ∧ t.reply = s.reply ∧
      t.addrW = s.addrW ∧ t.maxPixels = s.maxPixels := by
  have hnumber := Reg.ofNumber_eq_some_iff.mp hn
  have hcmd : r ≠ .cmd := by
    rintro rfl
    rw [hnumber] at hdata
    exact absurd hdata (by decide)
  refine ⟨_, step_write hr hh hn hcmd hv, State.readReg_writeReg_same _ hn hdata hv, fun m hm => ?_, ?_⟩
  · refine State.readReg_writeReg_other { s with host := rest } v fun hm' => hm ?_
    rw [Reg.ofNumber_eq_some_iff.mp hm', hnumber]
  · simp [hr]

/-- Settles O47: which register a number names, how wide it is, and what a write to it does. -/
theorem registerAccess : Obligations.RegisterAccess := by
  unfold Obligations.RegisterAccess
  intro s n v rest hr
  refine ⟨fun hh => step_access hr hh, fun hh hdata hv => ?_, fun hh hlow hhigh hv => ?_, rfl,
    fun habove => ⟨?_, fun hh => ?_⟩⟩
  · interval_cases n <;> exact step_write_data hr hh rfl (by decide) hv
  · interval_cases n <;> exact step_write hr hh rfl nofun hv
  · simp only [State.readReg, Reg.ofNumber_above habove]
  · rw [step_access hr hh, hostAccess_wr_above habove]

/-- Settles O43: register 5 takes the 32 bits as they are. -/
theorem literalRgbaIsAWrite : Obligations.LiteralRgbaIsAWrite := by
  unfold Obligations.LiteralRgbaIsAWrite
  intro s r g b a rest hr hh
  rw [step_write (r := .color) hr hh rfl nofun (r ++ g ++ b ++ a).isLt]
  simp only [State.writeReg, BitVec.ofNat_toNat, BitVec.setWidth_eq]

/-! ## What leaves STATUS alone -/

/-- Only a reset and a command change STATUS (R260). -/
theorem hostAccess_status {op : HostOp} {s t : State} (h : hostAccess op s = .next t) (hreset : op ≠ .reset)
    (hcmd : ∀ v, op ≠ .wr 7 v) : t.status = s.status := by
  cases op with
  | wr n v =>
    cases hn : Reg.ofNumber n with
    | none =>
      simp only [hostAccess, hn, Host.Outcome.next.injEq] at h
      rw [h]
    | some r =>
      rw [hostAccess_wr hn] at h
      obtain ⟨-, ⟨rfl, -⟩ | ⟨-, rfl⟩⟩ := registerWrite_cases h
      · exact absurd (congrArg (HostOp.wr · v) (Reg.ofNumber_eq_some_iff.mp hn)) (hcmd v)
      · exact State.writeReg_status ..
  | rd n => cases h; rfl
  | srcLoad bytes | srcPoke k b | rdDst k =>
    simp only [hostAccess] at h
    split at h <;> cases h
    rfl
  | reset => exact absurd rfl hreset

/-- Settles O46: the three things that can be next between commands. -/
theorem resetAndIdle : Obligations.ResetAndIdle := by
  unfold Obligations.ResetAndIdle
  intro s hr
  refine ⟨fun rest hh => ?_, fun op rest t hh hreset hcmd h => ?_, step_idle hr⟩
  · exact ⟨_, step_access hr hh, State.readReg_applyReset _, rfl, rfl, rfl, rfl, rfl, rfl, rfl,
      State.dstByte_of_ne_image nofun⟩
  · rw [step_access hr hh] at h
    exact hostAccess_status (s := { s with host := rest }) h hreset hcmd

/-! ## The memories -/

/-- A byte of DST that is not valid is refused (R59). -/
theorem step_rdDst_refused {s : State} {k : Nat} {rest : List HostOp} (hr : s.raster = none)
    (hh : s.host = .rdDst k :: rest) (hinvalid : s.status ≠ .image ∨ s.dstLen.toNat ≤ k) :
    step s = .refused (.dstNotValid k) := by
  have hnone : s.dstByte k = none := by
    rcases hinvalid with himage | hk
    · exact State.dstByte_of_ne_image himage k
    · unfold State.dstByte
      split
      · exact if_neg (Nat.not_lt.mpr hk)
      all_goals rfl
  rw [step_access hr hh]
  have hnone : State.dstByte { s with host := rest } k = none := hnone
  simp only [hostAccess, hnone]

/-- Settles O50: a valid byte is there by the invariant. -/
theorem dstValidity : Obligations.DstValidity := by
  unfold Obligations.DstValidity
  intro s k rest hinv hr hh
  refine ⟨fun himage hk => ?_, step_rdDst_refused hr hh⟩
  obtain ⟨b, hb⟩ := Option.isSome_iff_exists.mp ((hinv.image himage).2 k hk)
  have hbyte : State.dstByte { s with host := rest } k = some b := by
    simp only [State.dstByte, himage, if_pos hk, hb]
  refine ⟨b, hb, ?_⟩
  rw [step_access hr hh]
  simp only [hostAccess, hbyte]

/-- Settles O48: the width test of a register write, the index test of SRC, and the validity of a byte of DST. -/
theorem hostMisuseStops : Obligations.HostMisuseStops := by
  unfold Obligations.HostMisuseStops
  intro s n v b bytes rest hr
  refine ⟨fun r hh hn hv => ?_, fun hh hn => ?_, fun hh hlen => ?_, step_rdDst_refused hr⟩
  · rw [step_access hr hh, hostAccess_wr hn]
    exact registerWrite_wide n { s with host := rest } hv
  · rw [step_access hr hh]
    exact if_neg (Nat.not_lt.mpr hn)
  · rw [step_access hr hh]
    exact if_neg (Nat.not_le.mpr hlen)

/-- Settles O49: within the indices of SRC a byte is written, and a list of bytes is the new SRC. -/
theorem hostSuppliesSource : Obligations.HostSuppliesSource := by
  unfold Obligations.HostSuppliesSource
  intro s k b bytes rest hr
  refine ⟨fun hh hk => ⟨s.src.write k b, ?_, ?_, ?_⟩, fun hh hlen => ⟨Memory.ofBytes bytes, ?_, ?_⟩⟩
  · rw [step_access hr hh]
    exact if_pos hk
  · exact Memory.read_write_same ..
  · exact fun j hj => Memory.read_write_other _ _ hj
  · rw [step_access hr hh]
    exact if_pos hlen
  · exact Memory.read_ofBytes bytes

end Sys2Proof.Machine
end
